-- ==== Sys2Proof/Word.lean ====
section
/-! DEFINITION. The word types of the Zniac II core (spec/00_scope.md R8, R9). Bit 0 is the least
significant bit of every one of them. -/

namespace Sys2Proof

/-- A memory cell, the accumulator, an instruction word: 8 bits, unsigned storage (R8 `XLEN`, `ILEN`). -/
abbrev Byte := BitVec 8

/-- An operand address, the address field of a word: 5 bits (R8 `AW`). Every value is a cell index. -/
abbrev Addr := BitVec 5

/-- An opcode field: 3 bits (R8 `OPW`). -/
abbrev Opcode := BitVec 3

/-- The program counter: 6 bits, so that it can hold 32 (spec/10_state.md R24; the width is the
spec's decision D1, log entry 4). DESIGN CHOICE, safe: the values 33 to 63 are unreachable. -/
abbrev ProgramCounter := BitVec 6

end Sys2Proof
end

