-- ==== Sys2Proof/Config.lean ====
section
/-! DEFINITION. The fixed numbers of the hardware (spec/00_scope.md R8). None is configurable, and
the spec leaves no value free (spec/93_implementation_defined.md: "There is no `any value` row"),
so this file holds no opaque constant. -/

namespace Sys2Proof.Config

/-- Cells of the ROM region, indices 0 to 23 (R8 `ROM_SIZE`). -/
def romSize : Nat := 24

/-- First cell of the RAM region (R8 `RAM_BASE`). -/
def ramBase : Nat := 24

/-- Cells of the RAM region, indices 24 to 31 (R8 `RAM_SIZE`). -/
def ramSize : Nat := 8

/-- Cells of the whole address space, indices 0 to 31 (R8 `MEM_SIZE`). -/
def memSize : Nat := 32

/-- What a cell that the memory list does not mention reads as. RAM is zero at reset
(spec/10_state.md R35; log entry 17); a ROM cell the program does not fill is zero
(spec/92_eei_decisions.md D7; log entry 1). -/
def unlistedCell : Byte := 0

/-- The program image supplied with reset: exactly 24 bytes (spec/10_state.md R36). -/
abbrev RomImage := Vector Byte 24

end Sys2Proof.Config
end

