-- ==== Sys2Proof/Machine/State.lean ====
section
/-! DEFINITION. The state of the machine: exactly the five things of spec/10_state.md R20, all plain
data, and the machine right after reset. -/

namespace Sys2Proof.Machine

/-- The reason of a run-time fault of the hardware (spec/60_exceptions.md R170). Such a fault is a
value of `status` in a next state (R177), not a stop of the model. -/
inductive FaultReason where
  /-- The fetched word has opcode 6 (R171). -/
  | illegalInstruction
  /-- A `st` whose address field is below 24 (R172). -/
  | illegalWrite
  /-- The range check found `pc > 31` (R173). -/
  | programCounterOutOfRange
  deriving DecidableEq, Repr

/-- The run status (spec/10_state.md R29). Every value but `running` is terminal. -/
inductive Status where
  | running
  | haltedNormally
  | faulted (reason : FaultReason)
  deriving DecidableEq, Repr

/-- The memory: the cells that differ from `Config.unlistedCell`, by strictly rising address. -/
abbrev Memory := List Host.Cell

/-- The state of the hardware: "exactly five things" (spec/10_state.md R20). -/
structure State where
  /-- The accumulator `A` (R21). -/
  acc : Byte
  /-- The program counter: the index of the next instruction to fetch (R24). -/
  pc : ProgramCounter
  /-- The run status (R29). -/
  status : Status
  /-- The number of cycles taken since reset, without bound (R30; decision D2, log entry 5). -/
  steps : Nat
  /-- The 32 memory cells (R32). -/
  mem : Memory
  deriving DecidableEq, Repr

/-- Faults that stop the model. There is none: each of the three faults of the hardware has an entry
the spec describes (spec/60_exceptions.md R177), which a step takes as a next state, and "a fetch
never faults" (R189). So nothing raises one. -/
inductive Fault where
  deriving DecidableEq, Repr

/-- Refusals of the model. -/
inductive Refusal where
  /-- An instruction without a meaning. Raised by an arm of `exec` that has none; every arm has
  one, so nothing raises it. Safe: a run would stop where the hardware goes on. -/
  | notModelled (mnemonic : String)
  /-- A fetch at an address above 31, raised by a cycle that starts `Running` with `pc` above 31.
  The spec asks for it: "a refusal of the model, never … a value" (spec/20_memory.md R55; decision
  D12, log entry 9). Safe: no run from reset reaches it, and the model stops. -/
  | addressOutOfRange (address : Nat)
  deriving DecidableEq, Repr

/-- The machine right after reset (spec/10_state.md R35), with the empty program: every ROM cell is
the loader's padding, 0x00 (spec/92_eei_decisions.md D7). DESIGN CHOICE, unsafe: log entry 1. For a
given program image see `State.resetWith`. -/
def State.reset : State :=
  { acc := 0, pc := 0, status := .running, steps := 0, mem := [] }

end Sys2Proof.Machine
end

