-- ==== Sys2Proof/Machine/Flags.lean ====
section
/-! DEFINITION. Conditions. The hardware stores no flag (spec/10_state.md R28); the one condition an
instruction tests is read from the accumulator at the moment it executes. -/

namespace Sys2Proof.Machine

/-- "Negative": bit 7 is 1 (spec/10_state.md R23). -/
def isNegative (v : Byte) : Bool := v.getLsbD 7

/-- The signed reading of an 8-bit value, -128 to 127 (spec/00_scope.md R10). No instruction
computes with it. -/
def sint8 (v : Byte) : Int := if v.toNat ≤ 127 then (v.toNat : Int) else (v.toNat : Int) - 256

end Sys2Proof.Machine
end

