-- ==== Sys2Proof/Syntax.lean ====
section
/-! DEFINITION. The instructions: one constructor per row of spec/opcode_table.json
(spec/30_encoding.md R84). -/

namespace Sys2Proof

/-- An instruction word taken apart: the opcode is the constructor, the 5-bit address field its
argument (R80, R87). `illegal` and `halt` keep their address bits although execution ignores them
(R86), so that no bit of a word is lost (DESIGN CHOICE, safe: log entry 16). -/
inductive Instr where
  /-- Opcode 0, load the accumulator from a cell (spec/41_load_arith.md R130). -/
  | ld (ad : Addr)
  /-- Opcode 1, subtract a cell from the accumulator (R131). -/
  | sub (ad : Addr)
  /-- Opcode 2, add a cell to the accumulator (R132). -/
  | add (ad : Addr)
  /-- Opcode 3, store the accumulator to a cell (spec/42_store.md R140). -/
  | st (ad : Addr)
  /-- Opcode 4, branch always (spec/43_branch.md R150). -/
  | b (ad : Addr)
  /-- Opcode 5, branch if the accumulator is negative (R151). -/
  | bneg (ad : Addr)
  /-- Opcode 6, the illegal opcode (spec/44_halt_illegal.md R161). -/
  | illegal (ignored : Addr)
  /-- Opcode 7, end the run normally (R160). -/
  | halt (ignored : Addr)
  deriving DecidableEq, Repr

end Sys2Proof
end

