-- ==== Sys2Proof/WellFormed.lean ====
section
/-! DEFINITION. Which instructions and which raw field values are well formed. -/

namespace Sys2Proof

/-- The pairs of numbers `encode(op, ad)` is defined on: `0 <= op <= 7` and `0 <= ad <= 31`
(spec/30_encoding.md R83). A branch to address 32 or more and an opcode of 8 or more are
unrepresentable (spec/43_branch.md R153; spec/93_implementation_defined.md U2). -/
def fieldsInRange (op ad : Nat) : Bool :=
  decide (op ≤ 7) && decide (ad ≤ 31)

/-- An instruction is well formed when its two fields are in range. The 5-bit type of the address
field makes this true of every term of `Instr`, as the spec says: "always 0–31 by construction
(masked by the codec)" (spec/20_memory.md R55). -/
def Instr.wellFormed : Instr → Bool
  | .ld ad => fieldsInRange 0 ad.toNat
  | .sub ad => fieldsInRange 1 ad.toNat
  | .add ad => fieldsInRange 2 ad.toNat
  | .st ad => fieldsInRange 3 ad.toNat
  | .b ad => fieldsInRange 4 ad.toNat
  | .bneg ad => fieldsInRange 5 ad.toNat
  | .illegal ad => fieldsInRange 6 ad.toNat
  | .halt ad => fieldsInRange 7 ad.toNat

/-- A list of program bytes the core can be reset with as it stands: exactly 24 of them
(spec/10_state.md R36). -/
def imageComplete (bytes : List Byte) : Bool :=
  decide (bytes.length = Config.romSize)

end Sys2Proof
end

