-- ==== Sys2Proof/Decode.lean ====
section
/-! DEFINITION. The Instruction Codec (spec/30_encoding.md): the two field extractors, the decoder,
the encoder and the text rendering of a word. All of it is pure and reads no state. -/

namespace Sys2Proof

/-! ### The field extractors -/

/-- `opcode(w)` is `w[7:5]` (R81). -/
def opcode (w : Byte) : Opcode := w.extractLsb' 5 3

/-- `address(w)` is `w[4:0]` (R82). -/
def address (w : Byte) : Addr := w.extractLsb' 0 5

/-! ### Decoding -/

/-- The instruction a word stands for. The opcode field alone selects it (R84); the default arm is
the illegal one, and opcode 6 alone reaches it (spec/44_halt_illegal.md R162). Total on the 256
words, with nothing to reject: "there is no word without a meaning". -/
def decode (w : Byte) : Instr :=
  match (opcode w).toNat with
  | 0 => .ld (address w)
  | 1 => .sub (address w)
  | 2 => .add (address w)
  | 3 => .st (address w)
  | 4 => .b (address w)
  | 5 => .bneg (address w)
  | 7 => .halt (address w)
  | _ => .illegal (address w)

/-- Why a sequence of bytes holds no instruction. -/
inductive DecodeRefusal where
  /-- There is no byte at all: an instruction is exactly one cell (R80). Safe: no run decodes an
  empty sequence, because a fetch reads one whole cell. -/
  | noCell
  deriving DecidableEq, Repr

/-- Reads one instruction from the front of a byte sequence and gives back the rest. Every
instruction is exactly one byte long (R80). -/
def decodeBytes : List Byte → Except DecodeRefusal (Instr × List Byte)
  | [] => .error .noCell
  | w :: rest => .ok (decode w, rest)

/-! ### Encoding -/

/-- The word with the given fields, `op * 32 + ad` (R83). -/
def joinFields (op : Opcode) (ad : Addr) : Byte := op ++ ad

/-- `encode(op, ad)` on numbers, refused outside the range R83 gives it. -/
def encodeFields (op ad : Nat) : Option Byte :=
  if fieldsInRange op ad then some (joinFields (BitVec.ofNat 3 op) (BitVec.ofNat 5 ad)) else none

/-- The opcode of an instruction (R84). -/
def Instr.opcodeField : Instr → Opcode
  | .ld _ => 0
  | .sub _ => 1
  | .add _ => 2
  | .st _ => 3
  | .b _ => 4
  | .bneg _ => 5
  | .illegal _ => 6
  | .halt _ => 7

/-- The address field of an instruction, the ignored bits of `illegal` and `halt` included (R86). -/
def Instr.addressField : Instr → Addr
  | .ld ad => ad
  | .sub ad => ad
  | .add ad => ad
  | .st ad => ad
  | .b ad => ad
  | .bneg ad => ad
  | .illegal ad => ad
  | .halt ad => ad

/-- The word of an instruction (R83, R84). -/
def encode (i : Instr) : Byte := joinFields i.opcodeField i.addressField

/-! ### The text rendering of a word -/

/-- One lowercase hexadecimal digit of a number below 16. -/
def hexDigit (n : Nat) : Char :=
  if n < 10 then Char.ofNat ('0'.toNat + n) else Char.ofNat ('a'.toNat + (n - 10))

/-- `hex2(ad)`: exactly two lowercase hexadecimal digits (R92). -/
def hex2 (ad : Addr) : String :=
  String.ofList [hexDigit (ad.toNat / 16), hexDigit (ad.toNat % 16)]

/-- `mn(op)`, the mnemonic table (R93). The placeholder of opcode 6 is the four characters of R92,
the last a space (spec/90_conflicts.md C4; decision D21, log entry 11). -/
def mnemonic (op : Opcode) : String :=
  match op.toNat with
  | 0 => "ld"
  | 1 => "sub"
  | 2 => "add"
  | 3 => "st"
  | 4 => "b"
  | 5 => "bneg"
  | 7 => "halt"
  | _ => "??? "

/-- `disassemble(w)` (R92), by opcode class (R94). -/
def disassemble (w : Byte) : String :=
  if (opcode w).toNat ≤ 3 then mnemonic (opcode w) ++ " " ++ "A, " ++ hex2 (address w)
  else if (opcode w).toNat ≤ 5 then mnemonic (opcode w) ++ " " ++ hex2 (address w)
  else mnemonic (opcode w)

/-! ### The host's reading of a table word -/

/-- The bits of `w` cut into `n` cells, the first holding bits 7 to 0. -/
def cellsOfBits : Nat → Nat → List Byte
  | 0, _ => []
  | n + 1, w => BitVec.ofNat 8 w :: cellsOfBits n (w / 256)

/-- The cells of an instruction whose bits are `w`, `nbits` of them given and every bit above
`nbits` zero. There is at least one cell, since an instruction is one (R80). -/
def tableCells (nbits w : Nat) : List Byte :=
  cellsOfBits (max 1 ((nbits + 7) / 8)) (w % 2 ^ nbits)

/-- The instruction the decoder reads from a table word. None when bits are left over: no
instruction is longer than one cell (R80). -/
def decodeTableWord (nbits w : Nat) : Option Instr :=
  match decodeBytes (tableCells nbits w) with
  | .ok (i, []) => some i
  | .ok (_, _ :: _) => none
  | .error _ => none

end Sys2Proof
end

