-- ==== Sys2Proof/Machine/Ops.lean ====
section
/-! DEFINITION. The named operations over memory, registers and the cycle. Memory operations follow
spec/20_memory.md, the parts of the cycle spec/40_cycle.md, the taking of a fault
spec/60_exceptions.md. -/

namespace Sys2Proof.Machine

/-! ### Memory as data -/

/-- The content of a cell: the listed byte, else what an unlisted cell reads as. -/
def Memory.read : Memory → Nat → Byte
  | [], _ => Config.unlistedCell
  | (b, v) :: m, a => if a = b then v else Memory.read m a

/-- Lists a byte at an address, keeping the addresses rising. -/
def Memory.insertCell : Memory → Nat → Byte → Memory
  | [], a, v => [(a, v)]
  | (b, u) :: m, a, v =>
    if a < b then (a, v) :: (b, u) :: m
    else if a = b then (a, v) :: m
    else (b, u) :: Memory.insertCell m a v

/-- Takes an address off the list, so that it reads as an unlisted cell. -/
def Memory.eraseCell : Memory → Nat → Memory
  | [], _ => []
  | (b, u) :: m, a => if a = b then Memory.eraseCell m a else (b, u) :: Memory.eraseCell m a

/-- Gives a cell a value: all 8 bits at once, and only that cell (R61). Writing the byte an unlisted
cell reads as takes the cell off the list, so that equal memories are equal lists. -/
def Memory.write (m : Memory) (a : Nat) (v : Byte) : Memory :=
  if v = Config.unlistedCell then Memory.eraseCell m a else Memory.insertCell m a v

/-- The canonical form from an address on: addresses strictly rising, all of them cells of the
address space, no byte equal to what an unlisted cell reads as. -/
def Memory.wfFrom : Nat → Memory → Bool
  | _, [] => true
  | lo, (a, v) :: m =>
    decide (lo ≤ a) && decide (a < Config.memSize) && decide (v ≠ Config.unlistedCell)
      && Memory.wfFrom (a + 1) m

/-- The memory is in canonical form. -/
def Memory.wf (m : Memory) : Bool := Memory.wfFrom 0 m

/-- Gives successive cells, from an address on, the bytes of a list. -/
def Memory.writeList : Memory → Nat → List Byte → Memory
  | m, _, [] => m
  | m, a, v :: vs => Memory.writeList (Memory.write m a v) (a + 1) vs

/-! ### The address decoder and the access primitives -/

/-- The ROM/RAM address decoder: true exactly for the addresses 24 to 31 (R52). It gates writes
only. -/
def isRam (ad : Addr) : Bool := decide (Config.ramBase ≤ ad.toNat)

/-- `MemRead(a, 1)` at an operand address (R53). An operand address is always 0 to 31, so the read
never fails. -/
def Memory.load (m : Memory) (ad : Addr) : Byte := m.read ad.toNat

/-- `MemWrite(a, 1, v)` (R54): writes a RAM cell, or reports `IllegalWrite` and writes nothing. -/
def Memory.store (m : Memory) (ad : Addr) (v : Byte) : Except FaultReason Memory :=
  if isRam ad then .ok (m.write ad.toNat v) else .error .illegalWrite

/-- `MemRead(a, 1)` at an address of a wider type: an address above 31 is refused, never given a
value and never wrapped (R55; decision D12, log entry 9). -/
def Memory.loadWide (m : Memory) (a : Nat) : Except Refusal Byte :=
  if a < Config.memSize then .ok (m.read a) else .error (.addressOutOfRange a)

/-- The content of a cell in a state. -/
def State.cell (s : State) (a : Nat) : Byte := s.mem.read a

/-! ### Register and memory updates -/

/-- `A <- v` (spec/00_scope.md R12). -/
def State.setAcc (s : State) (v : Byte) : State := { s with acc := v }

/-- `pc <- t` (R12). -/
def State.setPc (s : State) (t : ProgramCounter) : State := { s with pc := t }

/-- The memory replaced. -/
def State.setMem (s : State) (m : Memory) : State := { s with mem := m }

/-- The run status replaced. -/
def State.setStatus (s : State) (st : Status) : State := { s with status := st }

/-- `pc <- pc + 1`: from 31 this gives 32, not 0 (spec/10_state.md R27). -/
def State.advance (s : State) : State := s.setPc (s.pc + 1)

/-! ### Taking a fault, and halting -/

/-- `raise Fault(reason)`: `status <- Faulted(reason)` and nothing else: `A`, `pc` and memory stay,
nothing is saved and control goes nowhere (spec/00_scope.md R12; spec/60_exceptions.md R177). There
is no return from a fault (R179): only reset leaves a terminal state (`State.applyReset`). -/
def State.raise (s : State) (reason : FaultReason) : State := s.setStatus (.faulted reason)

/-- `halt_run`: `status <- HaltedNormally` and nothing else (R12). -/
def State.haltRun (s : State) : State := s.setStatus .haltedNormally

/-! ### The parts of a cycle around the execute part -/

/-- A cycle is "only taken while `Running`" (spec/40_cycle.md R110). -/
def State.takesCycle (s : State) : Bool := decide (s.status = .running)

/-- What a step gives in a terminal state: the state unchanged, `steps` included (R110; decision
D11, log entry 8: DESIGN CHOICE, safe). -/
def State.idle (s : State) : Host.Outcome State Fault Refusal := .next s

/-- Part 1, fetch: the word at `pc` (R111). The program counter is not masked or wrapped
(spec/90_conflicts.md C7). -/
def State.fetch (s : State) : Except Refusal Byte := s.mem.loadWide s.pc.toNat

/-- Part 4, the range check, made only if still `Running`; it changes `status` only (R114). -/
def State.rangeCheck (s : State) : State :=
  if s.status = .running ∧ 31 < s.pc.toNat then s.raise .programCounterOutOfRange else s

/-- Part 5: `steps <- steps + 1` (R115). -/
def State.countStep (s : State) : State := { s with steps := s.steps + 1 }

/-- Parts 4 and 5, made on whatever state the execute part left, whether it is still `Running`,
halted or faulted (R114, R115). -/
def endCycle : Host.Outcome State Fault Refusal → Host.Outcome State Fault Refusal
  | .next t => .next t.rangeCheck.countStep
  | .fault r => .fault r
  | .refused r => .refused r

/-! ### Placing a word for the next fetch -/

/-- The program counter where a fetch reads a cell: `pc` itself, or 0, the entry point, when `pc` is
above 31 (log entry 18). -/
def State.fetchablePc (s : State) : ProgramCounter :=
  if s.pc.toNat < Config.memSize then s.pc else 0

/-- The state with a word stored where the next cycle fetches, and that cycle enabled: `status` is
`Running` and `pc` indexes a cell. It stands for a load from outside the machine (log entries 2 and
18: DESIGN CHOICE, safe); no instruction does this. -/
def State.placeWord (s : State) (w : Byte) : State :=
  { s with status := .running, pc := s.fetchablePc, mem := s.mem.write s.fetchablePc.toNat w }

end Sys2Proof.Machine
end

