-- ==== Sys2Proof/Machine/Operands.lean ====
section
/-! DEFINITION. The operand forms (spec/30_encoding.md R87, R88): the 5-bit address field, absolute,
read as a cell or used as a branch target; and the 8-bit arithmetic on what is read. -/

namespace Sys2Proof.Machine

/-- The operand of `ld`, `sub` and `add`: the cell the address field names, in either region
(spec/20_memory.md R58). -/
def State.operand (s : State) (ad : Addr) : Byte := s.mem.load ad

/-- The target of a branch: the address field zero-extended to the program counter's width, never
scaled and never relative (R87). -/
def branchTarget (ad : Addr) : ProgramCounter := ad.setWidth 6

/-- `(a + m) mod 256`; a carry is lost, and nothing is recorded (spec/41_load_arith.md R133). -/
def wrappingAdd (a m : Byte) : Byte := a + m

/-- `(a - m) mod 256`, accumulator minus memory (R131, R133). -/
def wrappingSub (a m : Byte) : Byte := a - m

end Sys2Proof.Machine
end

