-- ==== Sys2Proof/Machine/Branch.lean ====
section
/-! DEFINITION. The execute arms of `b` and `bneg` (spec/43_branch.md). -/

namespace Sys2Proof.Machine

/-- `b`: `pc <- ad` (R150). -/
def execB (ad : Addr) (s : State) : Host.Outcome State Fault Refusal :=
  .next (s.setPc (branchTarget ad))

/-- `bneg`: `if A[7] = 1 then pc <- ad else pc <- pc + 1` (R151). -/
def execBneg (ad : Addr) (s : State) : Host.Outcome State Fault Refusal :=
  if isNegative s.acc then .next (s.setPc (branchTarget ad)) else .next s.advance

end Sys2Proof.Machine
end

