-- ==== Sys2Proof/Machine/HaltIllegal.lean ====
section
/-! DEFINITION. The execute arms of `halt` and of the illegal opcode (spec/44_halt_illegal.md). Both
ignore the address field (spec/30_encoding.md R86). -/

namespace Sys2Proof.Machine

/-- The illegal opcode: `raise Fault(IllegalInstruction)`; `pc` stays at the illegal word (R161; the
latter is the spec's decision D4, log entry 6). -/
def execIllegal (s : State) : Host.Outcome State Fault Refusal :=
  .next (s.raise .illegalInstruction)

/-- `halt`: `halt_run`; `pc` stays at the `halt` word (R160; the latter is the spec's decision D3,
log entry 6). -/
def execHalt (s : State) : Host.Outcome State Fault Refusal :=
  .next s.haltRun

end Sys2Proof.Machine
end

