-- ==== Sys2Proof/Machine/LoadArith.lean ====
section
/-! DEFINITION. The execute arms of `ld`, `sub` and `add` (spec/41_load_arith.md). -/

namespace Sys2Proof.Machine

/-- `ld`: `A <- MemRead(ad, 1) ; pc <- pc + 1` (R130). -/
def execLd (ad : Addr) (s : State) : Host.Outcome State Fault Refusal :=
  .next (s.setAcc (s.operand ad)).advance

/-- `sub`: `A <- (A - MemRead(ad, 1)) mod 256 ; pc <- pc + 1` (R131). -/
def execSub (ad : Addr) (s : State) : Host.Outcome State Fault Refusal :=
  .next (s.setAcc (wrappingSub s.acc (s.operand ad))).advance

/-- `add`: `A <- (A + MemRead(ad, 1)) mod 256 ; pc <- pc + 1` (R132). -/
def execAdd (ad : Addr) (s : State) : Host.Outcome State Fault Refusal :=
  .next (s.setAcc (wrappingAdd s.acc (s.operand ad))).advance

end Sys2Proof.Machine
end

