-- ==== Sys2Proof/Machine/Store.lean ====
section
/-! DEFINITION. The execute arm of `st` (spec/42_store.md). -/

namespace Sys2Proof.Machine

/-- `st`: attempts `MemWrite(ad, 1, A)`; on success `pc <- pc + 1`, on failure the fault
`IllegalWrite` with `A`, `pc` and memory unchanged (R140). -/
def execSt (ad : Addr) (s : State) : Host.Outcome State Fault Refusal :=
  match s.mem.store ad s.acc with
  | .ok m => .next (s.setMem m).advance
  | .error reason => .next (s.raise reason)

end Sys2Proof.Machine
end

