-- ==== Sys2Proof/Machine/Dispatch.lean ====
section
/-! DEFINITION. The execute part of the cycle (spec/40_cycle.md R113): exactly one arm, chosen by the
opcode alone. The fetch, the decode, the range check and the step count around it are in `step`. -/

namespace Sys2Proof.Machine

def exec (i : Instr) (s : State) : Host.Outcome State Fault Refusal :=
  match i with
  | .ld ad => Sys2Proof.Machine.execLd ad s
  | .sub ad => Sys2Proof.Machine.execSub ad s
  | .add ad => Sys2Proof.Machine.execAdd ad s
  | .st ad => Sys2Proof.Machine.execSt ad s
  | .b ad => Sys2Proof.Machine.execB ad s
  | .bneg ad => Sys2Proof.Machine.execBneg ad s
  | .illegal _ => Sys2Proof.Machine.execIllegal s
  | .halt _ => Sys2Proof.Machine.execHalt s

end Sys2Proof.Machine
end

