-- ==== Sys2Proof/Machine/Step.lean ====
section
/-! DEFINITION. One step: one whole cycle of the Execution Engine (spec/40_cycle.md R117). -/

namespace Sys2Proof.Machine

/-- One step (R110 to R117): in a terminal state no cycle is taken; otherwise fetch, decode, execute,
range check and count. -/
def step (s : State) : Host.Outcome State Fault Refusal :=
  if s.takesCycle then
    match s.fetch with
    | .ok w => endCycle (exec (decode w) s)
    | .error r => .refused r
  else s.idle

/-- The state with an instruction stored where `step` fetches its next one, so that the very next
step runs it. An instruction is one cell (spec/30_encoding.md R80), so the first cell is all of it.
Log entries 2 and 18. -/
def State.withFetchWord (s : State) (nbits w : Nat) : State :=
  match tableCells nbits w with
  | [] => s
  | cell :: _ => s.placeWord cell

end Sys2Proof.Machine
end

