-- ==== Sys2Proof/Machine/Observe.lean ====
section
/-! DEFINITION. What the outside world sees of the core: the outputs of
spec/70_reset_and_hazards.md R206, the run outcome and the trace. Observing changes no state. -/

namespace Sys2Proof.Machine

/-- The optional 3-bit code of a status (spec/60_exceptions.md R174; decision D6, log entry 10). -/
def statusCode : Status → BitVec 3
  | .running => 0
  | .haltedNormally => 1
  | .faulted .illegalInstruction => 2
  | .faulted .illegalWrite => 3
  | .faulted .programCounterOutOfRange => 4

/-- The cells `M[24..31]`. -/
def State.ram (s : State) : List Byte := (List.range' Config.ramBase Config.ramSize).map s.cell

/-- The outputs that are plain functions of the current state (R206). -/
structure Outputs where
  status : Status
  steps : Nat
  acc : Byte
  pc : ProgramCounter
  ram : List Byte
  deriving DecidableEq, Repr

/-- The outputs in a state (R206). -/
def State.outputs (s : State) : Outputs :=
  { status := s.status, steps := s.steps, acc := s.acc, pc := s.pc, ram := s.ram }

/-- The run outcome (spec/10_state.md R36). -/
structure RunOutcome where
  status : Status
  steps : Nat
  acc : Byte
  ram : List Byte
  deriving DecidableEq, Repr

/-- The run outcome, produced when the status is terminal and not before (R36; R205). -/
def State.runOutcome (s : State) : Option RunOutcome :=
  if s.takesCycle then none
  else some { status := s.status, steps := s.steps, acc := s.acc, ram := s.ram }

/-- The per-cycle trace observation (spec/60_exceptions.md R186). -/
structure Trace where
  pcBefore : ProgramCounter
  word : Byte
  text : String
  accAfter : Byte
  deriving DecidableEq, Repr

/-- The trace of the cycle that leads from one state to another: defined for every cycle, the
halting and faulting ones included (R186; decision D14, log entry 13), and for nothing else. -/
def traceOf (before after : State) : Option Trace :=
  if before.takesCycle then
    match before.fetch with
    | .ok w =>
      some { pcBefore := before.pc, word := w, text := disassemble w, accAfter := after.acc }
    | .error _ => none
  else none

end Sys2Proof.Machine
end

