-- ==== Sys2Proof/Machine/Reset.lean ====
section
/-! DEFINITION. Reset with a program image (spec/70_reset_and_hazards.md R200 to R203). -/

namespace Sys2Proof.Machine

/-- The state a reset with `rom` gives (spec/10_state.md R35): `A`, `pc` and `steps` are 0, `status`
is `Running`, the ROM cells hold the image and every RAM cell is 0. -/
def State.resetWith (rom : Config.RomImage) : State :=
  { acc := 0, pc := 0, status := .running, steps := 0, mem := Memory.writeList [] 0 rom.toList }

/-- The reset event, usable in any state, terminal or not: nothing of the previous state survives
(R202; decision D9, log entry 12). It is the host's only move that changes the state (R207). -/
def State.applyReset (rom : Config.RomImage) (_before : State) : State := State.resetWith rom

/-- The image of a program of at most 24 bytes, the rest padded with 0x00 (spec/10_state.md R36;
decision D7, log entry 1). A longer program is no image: the loader refuses it (R203). -/
def paddedImage (program : List Byte) : Option Config.RomImage :=
  if program.length ≤ Config.romSize then
    some (Vector.ofFn fun i : Fin 24 => program.getD i.val 0)
  else none

end Sys2Proof.Machine
end

