-- ==== Sys2Proof/Safety.lean ====
section
/-! DEFINITION. The terms claims are stated in: a cycle that fetches a word, runs and their end, the
states a run can be in, and what a safe run is. -/

namespace Sys2Proof.Safety

open Sys2Proof.Machine

/-- A cycle is taken in `s` and its fetch reads the word `w` (spec/40_cycle.md R110, R111). -/
structure Fetches (s : State) (w : Byte) : Prop where
  running : s.status = .running
  inRange : s.pc.toNat ≤ 31
  word : s.cell s.pc.toNat = w

/-- The status a cycle ends in when its instruction advances `pc` and does nothing else to the
status: the range check fails exactly at the last cell (spec/40_cycle.md R114). -/
def statusAfterAdvance (s : State) : Status :=
  if s.pc.toNat = 31 then .faulted .programCounterOutOfRange else .running

/-- `n` steps from a state. -/
def runFor (n : Nat) (s : State) : Host.Outcome State Fault Refusal := Sys2Proof.core.run n s

/-- `t` is the end of the run from `s`, reached after `n` cycles: the first state of the run that is
not `Running` (spec/70_reset_and_hazards.md R205). -/
structure EndsAt (s : State) (n : Nat) (t : State) : Prop where
  reached : runFor n s = .next t
  terminal : t.status ≠ .running
  first : ∀ k, k < n → ∃ u, runFor k s = .next u ∧ u.status = .running

/-- The states a run can be in. What each terminal status says of the word at `pc` is what an
observer can recover from it (spec/60_exceptions.md R175); the bounds of `pc` are
spec/10_state.md R24 and R27. -/
structure Inv (s : State) : Prop where
  /-- The memory is in canonical form, so every listed address is a cell. -/
  memory : s.mem.wf = true
  /-- `Running` implies `pc <= 31` (R27). -/
  running_pc : s.status = .running → s.pc.toNat ≤ 31
  /-- A normal halt leaves `pc` at a `halt` word. -/
  halted_at : s.status = .haltedNormally →
    s.pc.toNat ≤ 31 ∧ opcode (s.cell s.pc.toNat) = 7
  /-- An illegal instruction leaves `pc` at a word of opcode 6. -/
  illegal_at : s.status = .faulted .illegalInstruction →
    s.pc.toNat ≤ 31 ∧ opcode (s.cell s.pc.toNat) = 6
  /-- An illegal write leaves `pc` at a `st` to a ROM cell. -/
  illegalWrite_at : s.status = .faulted .illegalWrite →
    s.pc.toNat ≤ 31 ∧ opcode (s.cell s.pc.toNat) = 3 ∧
      (address (s.cell s.pc.toNat)).toNat < 24
  /-- Running off the end leaves `pc` at 32 (R173). -/
  rangeFault_pc : s.status = .faulted .programCounterOutOfRange → s.pc.toNat = 32

/-- The ROM cells hold the image (spec/42_store.md R141). -/
def RomHolds (rom : Config.RomImage) (s : State) : Prop :=
  ∀ (a : Nat) (h : a < 24), s.cell a = rom[a]

/-- The cycle's instruction does not end the run: the complement of the list of spec/60_exceptions.md
R189 for the word at `pc`. -/
def goesOn (s : State) (w : Byte) : Bool :=
  match decode w with
  | .ld _ => decide (s.pc.toNat < 31)
  | .sub _ => decide (s.pc.toNat < 31)
  | .add _ => decide (s.pc.toNat < 31)
  | .st ad => decide (24 ≤ ad.toNat) && decide (s.pc.toNat < 31)
  | .b _ => true
  | .bneg _ => decide (128 ≤ s.acc.toNat) || decide (s.pc.toNat < 31)
  | .illegal _ => false
  | .halt _ => false

/-- A run is safe as long as it has not faulted: it is `Running` or has halted normally. -/
def notFaulted (s : State) : Bool :=
  match s.status with
  | .running => true
  | .haltedNormally => true
  | .faulted _ => false

/-- What a bounded executor reports. The fuel is the executor's own and no part of the machine, so
running out of it is distinct from every run outcome (spec/40_cycle.md R119). -/
inductive RunReport where
  /-- The run ended, with its outcome. -/
  | ended (o : RunOutcome)
  /-- The fuel ran out while the machine was still `Running`. -/
  | fuelExhausted
  /-- The model stopped. No run from reset does. -/
  | stopped
  deriving DecidableEq, Repr

/-- Runs at most `fuel` cycles and reports. -/
def report (fuel : Nat) (s : State) : RunReport :=
  match runFor fuel s with
  | .next t =>
    match t.runOutcome with
    | some o => .ended o
    | none => .fuelExhausted
  | .fault _ => .stopped
  | .refused _ => .stopped

end Sys2Proof.Safety
end

