-- ==== Sys2Proof/Reference.lean ====
section
/-! DEFINITION. The whole transition as spec/40_cycle.md R117 writes it, over natural numbers, and
the view of a state it works on. It shares no decoder, memory or arithmetic with the machine: a
statement that the machine agrees with it compares two readings of the spec. -/

namespace Sys2Proof.Reference

open Sys2Proof.Machine

/-- The five pieces of state as the pseudocode sees them: numbers, and a memory indexed by address. -/
structure View where
  A : Nat
  pc : Nat
  status : Status
  steps : Nat
  M : Nat → Nat

/-- What the pseudocode sees of a state. -/
def view (s : State) : View :=
  { A := s.acc.toNat, pc := s.pc.toNat, status := s.status, steps := s.steps
    M := fun a => (s.cell a).toNat }

/-- Part 3 of `Step`: the execute arm for an opcode and an address (R117). -/
def execute (op ad : Nat) (v : View) : View :=
  match op with
  | 0 => { v with A := v.M ad, pc := v.pc + 1 }
  | 1 => { v with A := (((v.A : Int) - (v.M ad : Int)) % 256).toNat, pc := v.pc + 1 }
  | 2 => { v with A := (v.A + v.M ad) % 256, pc := v.pc + 1 }
  | 3 =>
    if 24 ≤ ad then { v with M := fun x => if x = ad then v.A else v.M x, pc := v.pc + 1 }
    else { v with status := .faulted .illegalWrite }
  | 4 => { v with pc := ad }
  | 5 => if v.A / 128 % 2 = 1 then { v with pc := ad } else { v with pc := v.pc + 1 }
  | 6 => { v with status := .faulted .illegalInstruction }
  | _ => { v with status := .haltedNormally }

/-- Part 4 of `Step`, the range check. -/
def check (v : View) : View :=
  if v.status = .running ∧ 31 < v.pc then { v with status := .faulted .programCounterOutOfRange }
  else v

/-- `Step`: fetch and decode, execute, check, count. -/
def pseudoStep (v : View) : View :=
  let w := v.M v.pc
  let u := check (execute (w / 32) (w % 32) v)
  { u with steps := u.steps + 1 }

/-- A run repeats `Step` for as long as the status is `Running` (R118). -/
def pseudoRun : Nat → View → View
  | 0, v => v
  | n + 1, v => if v.status = .running then pseudoRun n (pseudoStep v) else v

/-- The reset state of the pseudocode for an image (spec/10_state.md R35). -/
def pseudoReset (rom : Config.RomImage) : View :=
  { A := 0, pc := 0, status := .running, steps := 0
    M := fun a => if h : a < 24 then (rom[a]).toNat else 0 }

end Sys2Proof.Reference
end

