-- ==== Sys2Proof/Certificates/Slice0/Obligations.lean ====
section
/-! DEFINITION. The statements for the provers, file by file of spec/. A frame is stated as an
equation of whole states: `{ s with … }` names every field that changes, so every other field, and
with it every cell of memory, is as before. Where the memory changes, the statement says what every
single cell reads afterwards. -/

open Sys2Proof Sys2Proof.Machine Sys2Proof.Safety Sys2Proof.Reference

/-! ### spec/30_encoding.md: the codec -/

/-- R81, R82: `opcode(w)` is `(w >> 5) & 0b111`, that is `w[7:5]`, `floor(w / 32)`, in 0 to 7;
`address(w)` is `w & 0b11111`, that is `w[4:0]`, `w mod 32`, in 0 to 31. -/
def Obligations.FieldExtractorsSplitTheWord : Prop :=
  ∀ w : Byte,
    ((opcode w).toNat = ((w >>> 5) &&& 0b111#8).toNat ∧
      (∀ i, i < 3 → (opcode w).getLsbD i = w.getLsbD (5 + i)) ∧
      (opcode w).toNat = w.toNat / 32 ∧ (opcode w).toNat ≤ 7) ∧
    ((address w).toNat = (w &&& 0b11111#8).toNat ∧
      (∀ i, i < 5 → (address w).getLsbD i = w.getLsbD i) ∧
      (address w).toNat = w.toNat % 32 ∧ (address w).toNat ≤ 31)

/-- R83: `encode(op, ad)` is `op * 32 + ad` on its range and the inverse of the two extractors. That
it is refused outside the range is the model's reading of the range R83 gives it. -/
def Obligations.EncodeFieldsInvertsTheExtractors : Prop :=
  (∀ op ad : Nat, op ≤ 7 ∧ ad ≤ 31 →
    ∃ w, encodeFields op ad = some w ∧ w.toNat = op * 32 + ad ∧
      (opcode w).toNat = op ∧ (address w).toNat = ad) ∧
  (∀ op ad : Nat, ¬ (op ≤ 7 ∧ ad ≤ 31) → encodeFields op ad = none) ∧
  (∀ w : Byte, encodeFields (opcode w).toNat (address w).toNat = some w)

/-- Decode and encode agree: on every instruction, with every operand, alone or in front of other
bytes; and on every word. Every instruction is well formed. -/
def Obligations.DecodeAndEncodeAgree : Prop :=
  (∀ i : Instr, i.wellFormed = true ∧ decode (encode i) = i ∧
    ∀ rest, decodeBytes (encode i :: rest) = .ok (i, rest)) ∧
  (∀ w : Byte, encode (decode w) = w)

/-- R84: the opcode map by ranges of words. -/
def Obligations.WordRangesSelectTheInstruction : Prop :=
  ∀ w : Byte,
    (w.toNat ≤ 0x1f → decode w = .ld (address w)) ∧
    (0x20 ≤ w.toNat ∧ w.toNat ≤ 0x3f → decode w = .sub (address w)) ∧
    (0x40 ≤ w.toNat ∧ w.toNat ≤ 0x5f → decode w = .add (address w)) ∧
    (0x60 ≤ w.toNat ∧ w.toNat ≤ 0x7f → decode w = .st (address w)) ∧
    (0x80 ≤ w.toNat ∧ w.toNat ≤ 0x9f → decode w = .b (address w)) ∧
    (0xa0 ≤ w.toNat ∧ w.toNat ≤ 0xbf → decode w = .bneg (address w)) ∧
    (0xc0 ≤ w.toNat ∧ w.toNat ≤ 0xdf → decode w = .illegal (address w)) ∧
    (0xe0 ≤ w.toNat → decode w = .halt (address w))

/-- A word of each family, written out bit by bit from its encoding. -/
def Obligations.WordsWrittenOutDecode : Prop :=
  decode 0b000_11000#8 = .ld 24 ∧ decode 0b001_11111#8 = .sub 31 ∧
  decode 0b010_00110#8 = .add 6 ∧ decode 0b011_11000#8 = .st 24 ∧
  decode 0b100_00001#8 = .b 1 ∧ decode 0b101_00101#8 = .bneg 5 ∧
  decode 0b110_00101#8 = .illegal 5 ∧ decode 0b111_00000#8 = .halt 0

/-- R92, R93: the rendering of a word, from a table of mnemonics and a table of digits. The exact
strings of opcodes 6 and 7 are the spec's decision D21 (log entry 11). -/
def Obligations.RenderingFollowsTheTables : Prop :=
  ∀ w : Byte,
    let digit := fun n => "0123456789abcdef".toList.getD n ' '
    let hh := String.ofList [digit (w.toNat % 32 / 16), digit (w.toNat % 16)]
    let mn := ["ld", "sub", "add", "st", "b", "bneg", "??? ", "halt"].getD (w.toNat / 32) ""
    disassemble w =
      if w.toNat / 32 ≤ 3 then mn ++ " A, " ++ hh
      else if w.toNat / 32 ≤ 5 then mn ++ " " ++ hh
      else mn

/-- R94: 32 distinct strings for each of opcodes 0 to 5 and a single one for each of 6 and 7: two
words render alike exactly when they are one word or differ in ignored bits only. The strings of
opcodes 6 and 7 are the spec's decision D21 (log entry 11). -/
def Obligations.RenderingsCoincideOnlyOnIgnoredBits : Prop :=
  ∀ v w : Byte, disassemble v = disassemble w ↔
    v = w ∨ (opcode v = opcode w ∧ 6 ≤ (opcode v).toNat)

/-! ### spec/40_cycle.md: the cycle -/

/-- A step runs the decoded instruction: fetch, decode and execute, then the range check on what
execute left, then the count. That the check and the one count belong to the cycle of the instruction
that set `pc` is the spec's decision D5 (log entry 7). -/
def Obligations.StepRunsTheDecodedInstruction : Prop :=
  ∀ (s : State) (w : Byte) (i : Instr), Fetches s w → decode w = i →
    ∃ t, exec i s = .next t ∧
      step s = .next { t with
        status := if t.status = .running ∧ 31 < t.pc.toNat
          then .faulted .programCounterOutOfRange else t.status
        steps := t.steps + 1 }

/-- R114: the range check. It looks at the `pc` that execute left, only if still `Running`, and
changes the status only; the only value above 31 it can find is 32, from `pc + 1` at 31. -/
def Obligations.RangeCheckChangesStatusOnly : Prop :=
  ∀ (s : State) (w : Byte) (t : State), Fetches s w → exec (decode w) s = .next t →
    (31 < t.pc.toNat → t.pc.toNat = 32 ∧ s.pc.toNat = 31) ∧
    ∃ u, step s = .next u ∧ u.acc = t.acc ∧ u.pc = t.pc ∧ u.mem = t.mem ∧
      (t.status = .running ∧ 31 < t.pc.toNat →
        u.status = .faulted .programCounterOutOfRange) ∧
      (¬ (t.status = .running ∧ 31 < t.pc.toNat) → u.status = t.status)

/-- R110, R179: a terminal state takes no cycle, so it stays as it is, `steps` included, however
often it is stepped. That `step` answers the state itself, and not "no step", is the model's choice
between the two answers R110 allows (log entry 8). -/
def Obligations.TerminalStateNeverChanges : Prop :=
  ∀ s : State, s.status ≠ .running → step s = .next s ∧ ∀ n, runFor n s = .next s

/-- R117: the whole transition. On every `Running` state with `pc` in range, one step of the machine
is one `Step` of the spec's pseudocode, written over numbers in Sys2Proof/Reference.lean. What the
two agree on rests on decisions of the spec where R117 leaves an arm to its own rule: `pc` after
`halt` and the illegal opcode (R160, R161; D3, D4, log entry 6), the single count of the cycle of a
range fault (R115; D5, log entry 7), and the counter without bound (R30; D2, log entry 5). -/
def Obligations.StepRefinesThePseudocode : Prop :=
  ∀ s : State, s.status = .running → s.pc.toNat ≤ 31 →
    ∃ t, step s = .next t ∧ view t = pseudoStep (view s)

/-- R118: every run from reset, of any image and any length, is the run of the pseudocode. It
rests on decisions of the spec: RAM is zero at reset (D15, log entry 17), `steps` is 0 there (derived
in R35, log entry 19), `pc` after `halt` and the illegal opcode (D3, D4, log entry 6), the single
count of the cycle of a range fault (D5, log entry 7), the counter without bound (D2, log entry 5),
and a terminal state that stays as it is (D11, log entry 8). -/
def Obligations.RunsFromResetRefineThePseudocode : Prop :=
  ∀ (rom : Config.RomImage) (n : Nat),
    ∃ t, runFor n (State.resetWith rom) = .next t ∧ view t = pseudoRun n (pseudoReset rom)

/-- R119: no step limit. A branch to itself runs for ever: after any number of steps the machine is
where it was, and only the count has grown. -/
def Obligations.BranchToItselfNeverEnds : Prop :=
  ∀ (s : State) (ad : Addr) (n : Nat), Fetches s (encode (.b ad)) → s.pc.toNat = ad.toNat →
    runFor n s = .next { s with steps := s.steps + n }

/-- R55, and the model's refusal (decision D12, log entry 9): a step is refused exactly when a cycle
would fetch above 31, and otherwise answers a next state (in a terminal state that same state, the
model's choice between the two answers D11 allows, log entry 8). -/
def Obligations.StepStopsOnlyOnFetchAbove31 : Prop :=
  ∀ s : State,
    (s.status = .running ∧ 31 < s.pc.toNat → step s = .refused (.addressOutOfRange s.pc.toNat)) ∧
    (¬ (s.status = .running ∧ 31 < s.pc.toNat) → ∃ t, step s = .next t)

/-! ### spec/41_load_arith.md: ld, sub, add -/

/-- R130: `ld`: its word, its rendering, its effect as an execute part and as a whole cycle
(range check R114, count R115). The count of a cycle at `pc = 31`, one
and not two with the range fault, is R115 and the spec's decision D5 (log entry 7). -/
def Obligations.LdLoadsTheCell : Prop :=
  ∀ (s : State) (ad : Addr),
    exec (.ld ad) s = .next { s with acc := s.cell ad.toNat, pc := s.pc + 1 } ∧
    (encode (.ld ad)).toNat = ad.toNat ∧
    disassemble (encode (.ld ad)) = "ld A, " ++ hex2 ad ∧
    (Fetches s (encode (.ld ad)) →
      (s.pc + 1).toNat = s.pc.toNat + 1 ∧
      step s = .next { s with
        acc := s.cell ad.toNat, pc := s.pc + 1
        status := statusAfterAdvance s, steps := s.steps + 1 })

/-- R131: `sub`: accumulator minus memory, modulo 256. The count of a cycle at `pc = 31`, one
and not two with the range fault, is R115 and the spec's decision D5 (log entry 7). -/
def Obligations.SubSubtractsTheCell : Prop :=
  ∀ (s : State) (ad : Addr), ∃ v : Byte,
    (v.toNat : Int) = ((s.acc.toNat : Int) - ((s.cell ad.toNat).toNat : Int)) % 256 ∧
    exec (.sub ad) s = .next { s with acc := v, pc := s.pc + 1 } ∧
    (encode (.sub ad)).toNat = 0x20 + ad.toNat ∧
    disassemble (encode (.sub ad)) = "sub A, " ++ hex2 ad ∧
    (Fetches s (encode (.sub ad)) →
      (s.pc + 1).toNat = s.pc.toNat + 1 ∧
      step s = .next { s with
        acc := v, pc := s.pc + 1, status := statusAfterAdvance s, steps := s.steps + 1 })

/-- R132: `add`: accumulator plus memory, modulo 256. The count of a cycle at `pc = 31`, one
and not two with the range fault, is R115 and the spec's decision D5 (log entry 7). -/
def Obligations.AddAddsTheCell : Prop :=
  ∀ (s : State) (ad : Addr), ∃ v : Byte,
    v.toNat = (s.acc.toNat + (s.cell ad.toNat).toNat) % 256 ∧
    exec (.add ad) s = .next { s with acc := v, pc := s.pc + 1 } ∧
    (encode (.add ad)).toNat = 0x40 + ad.toNat ∧
    disassemble (encode (.add ad)) = "add A, " ++ hex2 ad ∧
    (Fetches s (encode (.add ad)) →
      (s.pc + 1).toNat = s.pc.toNat + 1 ∧
      step s = .next { s with
        acc := v, pc := s.pc + 1, status := statusAfterAdvance s, steps := s.steps + 1 })

/-- R133: the arithmetic laws: where the result wraps and where it does not, and that the signed
reading of the result is congruent to the signed result. -/
def Obligations.ArithmeticWrapsSilently : Prop :=
  ∀ (s : State) (ad : Addr), ∃ t u : State,
    exec (.add ad) s = .next t ∧ exec (.sub ad) s = .next u ∧
    t.status = s.status ∧ u.status = s.status ∧
    (s.acc.toNat + (s.cell ad.toNat).toNat ≤ 255 →
      t.acc.toNat = s.acc.toNat + (s.cell ad.toNat).toNat) ∧
    (256 ≤ s.acc.toNat + (s.cell ad.toNat).toNat →
      t.acc.toNat + 256 = s.acc.toNat + (s.cell ad.toNat).toNat) ∧
    ((s.cell ad.toNat).toNat ≤ s.acc.toNat →
      u.acc.toNat + (s.cell ad.toNat).toNat = s.acc.toNat) ∧
    (s.acc.toNat < (s.cell ad.toNat).toNat →
      u.acc.toNat + (s.cell ad.toNat).toNat = s.acc.toNat + 256) ∧
    (sint8 t.acc - (sint8 s.acc + sint8 (s.cell ad.toNat))) % 256 = 0 ∧
    (sint8 u.acc - (sint8 s.acc - sint8 (s.cell ad.toNat))) % 256 = 0

/-! ### spec/42_store.md and spec/20_memory.md: st, and the memory -/

/-- R140: `st`: to a RAM cell it stores, to a ROM cell it faults with nothing else changed. The
address stored to is the address field. The count of a
store's cycle at `pc = 31`, one and not two with the range fault, is R115 and the spec's decision D5
(log entry 7). -/
def Obligations.StStoresToRamOrFaults : Prop :=
  ∀ (s : State) (ad : Addr),
    (encode (.st ad)).toNat = 0x60 + ad.toNat ∧
    disassemble (encode (.st ad)) = "st A, " ++ hex2 ad ∧
    (24 ≤ ad.toNat → ∃ m : Memory,
      exec (.st ad) s = .next { s with mem := m, pc := s.pc + 1 } ∧
      m.read ad.toNat = s.acc ∧ (∀ x, x ≠ ad.toNat → m.read x = s.cell x) ∧
      (Fetches s (encode (.st ad)) →
        (s.pc + 1).toNat = s.pc.toNat + 1 ∧
        step s = .next { s with
          mem := m, pc := s.pc + 1, status := statusAfterAdvance s, steps := s.steps + 1 })) ∧
    (ad.toNat < 24 →
      exec (.st ad) s = .next { s with status := .faulted .illegalWrite } ∧
      (Fetches s (encode (.st ad)) →
        step s = .next { s with status := .faulted .illegalWrite, steps := s.steps + 1 }))

/-- R54: `MemWrite`. At a RAM address it writes that one cell, at a ROM address it fails and writes
nothing; its only caller is `st`, which turns the failure into the fault. That
a memory in canonical form stays in it is about the model's own form of memory (log entry 3); R54
says nothing of it. -/
def Obligations.MemWriteWritesOneRamCellOrFails : Prop :=
  (∀ (m : Memory) (ad : Addr) (v : Byte), 24 ≤ ad.toNat →
    ∃ m' : Memory, m.store ad v = .ok m' ∧ m'.read ad.toNat = v ∧
      (∀ x, x ≠ ad.toNat → m'.read x = m.read x) ∧ (m.wf = true → m'.wf = true)) ∧
  (∀ (m : Memory) (ad : Addr) (v : Byte), ad.toNat < 24 → m.store ad v = .error .illegalWrite) ∧
  (∀ (s : State) (ad : Addr), ad.toNat < 24 →
    exec (.st ad) s = .next { s with status := .faulted .illegalWrite }) ∧
  (∀ (i : Instr) (s t : State), (∀ ad, i ≠ .st ad) → exec i s = .next t → t.mem = s.mem)

/-- R52: the address decoder, as a bound and as bits 4 and 3 of the address. -/
def Obligations.RamDecoderTestsBitsFourAndThree : Prop :=
  ∀ a : Addr, (isRam a = true ↔ 24 ≤ a.toNat) ∧
    (isRam a = true ↔ a.getLsbD 4 = true ∧ a.getLsbD 3 = true)

/-- The canonical form is one form: memories in it whose 32 cells read alike are equal data. -/
def Obligations.CanonicalMemoriesAreEqualWhenReadsAgree : Prop :=
  ∀ m m' : Memory, m.wf = true → m'.wf = true →
    (∀ a, a < 32 → m.read a = m'.read a) → m = m'

/-- R141: a cell changes in a step only when the step's instruction is a `st` to it, it is a RAM
cell, and it then holds the accumulator (a terminal state steps to itself: D11, log entry 8). -/
def Obligations.OnlyStoreChangesMemory : Prop :=
  ∀ (s t : State) (x : Nat), step s = .next t → t.cell x ≠ s.cell x →
    s.status = .running ∧ 24 ≤ x ∧ x ≤ 31 ∧ t.cell x = s.acc ∧
      ∃ ad : Addr, decode (s.cell s.pc.toNat) = .st ad ∧ ad.toNat = x

/-- R141: at every point of every run the ROM cells hold the image (the step behind it is
`EveryStepKeepsTheRomImage`; steps past the end of a run answer the state itself: D11, log entry 8). -/
def Obligations.RomHoldsTheImageThroughEveryRun : Prop :=
  ∀ (rom : Config.RomImage) (n : Nat),
    ∃ t, runFor n (State.resetWith rom) = .next t ∧ RomHolds rom t

/-- R33, R141: no step writes a ROM cell: from every state whose ROM cells hold an image, reachable or
not, a step gives a state whose ROM cells hold the same image. That a reset with the image gives such
a state is a clause of `ResetGivesTheResetValues`. A terminal state steps to itself (D11, log entry
8). -/
def Obligations.EveryStepKeepsTheRomImage : Prop :=
  ∀ (rom : Config.RomImage) (s t : State), RomHolds rom s → step s = .next t → RomHolds rom t

/-- The frame of the execute part, instruction by instruction (R22, R120, R134): what each leaves
unchanged. The address stored to is the address field of a `st` to RAM; every other cell reads as
before. `pc` may change. That `steps` stays is so because the execute part is taken without the count
(log entry 15). -/
def Obligations.ExecuteLeavesTheRestUnchanged : Prop :=
  ∀ (i : Instr) (s t : State), exec i s = .next t →
    t.steps = s.steps ∧
    ((∀ ad, i ≠ .ld ad ∧ i ≠ .sub ad ∧ i ≠ .add ad) → t.acc = s.acc) ∧
    ((∀ ad, i ≠ .illegal ad ∧ i ≠ .halt ad ∧ (i = .st ad → 24 ≤ ad.toNat)) →
      t.status = s.status) ∧
    (∀ x, (∀ ad, i = .st ad → 24 ≤ ad.toNat → x ≠ ad.toNat) → t.cell x = s.cell x)

/-- R67: a store is seen by the very next fetch: the word a `st` puts into the next cell is what the
next cycle executes. -/
def Obligations.StoredWordIsFetchedNext : Prop :=
  ∀ (s : State) (ad : Addr), Fetches s (encode (.st ad)) → 24 ≤ ad.toNat →
    s.pc.toNat + 1 = ad.toNat → ∃ t, step s = .next t ∧ Fetches t s.acc

/-! ### spec/43_branch.md: b, bneg -/

/-- R150: `b`: `pc` becomes exactly the address field, and nothing else changes; never a fault. -/
def Obligations.BranchSetsThePc : Prop :=
  ∀ (s : State) (ad : Addr), ∃ target : ProgramCounter, target.toNat = ad.toNat ∧
    exec (.b ad) s = .next { s with pc := target } ∧
    (encode (.b ad)).toNat = 0x80 + ad.toNat ∧
    disassemble (encode (.b ad)) = "b " ++ hex2 ad ∧
    (Fetches s (encode (.b ad)) →
      step s = .next { s with pc := target, steps := s.steps + 1 })

/-- R151: `bneg`: taken exactly when the accumulator is negative, in any of the three ways of saying
so; the range check can fail only when it is not taken. The count of an untaken
cycle at `pc = 31`, one and not two with the range fault, is R115 and the spec's decision D5 (log
entry 7). -/
def Obligations.BnegBranchesWhenNegative : Prop :=
  ∀ (s : State) (ad : Addr), ∃ target : ProgramCounter, target.toNat = ad.toNat ∧
    (s.acc.getLsbD 7 = true ↔ 128 ≤ s.acc.toNat) ∧ (s.acc.getLsbD 7 = true ↔ sint8 s.acc < 0) ∧
    (encode (.bneg ad)).toNat = 0xa0 + ad.toNat ∧
    disassemble (encode (.bneg ad)) = "bneg " ++ hex2 ad ∧
    (s.acc.getLsbD 7 = true →
      exec (.bneg ad) s = .next { s with pc := target } ∧
      (Fetches s (encode (.bneg ad)) →
        step s = .next { s with pc := target, steps := s.steps + 1 })) ∧
    (s.acc.getLsbD 7 = false →
      exec (.bneg ad) s = .next { s with pc := s.pc + 1 } ∧
      (Fetches s (encode (.bneg ad)) →
        (s.pc + 1).toNat = s.pc.toNat + 1 ∧
        step s = .next { s with
          pc := s.pc + 1, status := statusAfterAdvance s, steps := s.steps + 1 }))

/-! ### spec/44_halt_illegal.md: halt and the illegal opcode -/

/-- R160: `halt`: the status becomes `HaltedNormally` and nothing else changes but the count. That
`pc` stays is the spec's decision D3 (log entry 6); the exact string `halt`, without a space, is R92
and its decision D21 (log entry 11). -/
def Obligations.HaltEndsTheRun : Prop :=
  ∀ (s : State) (x : Addr),
    exec (.halt x) s = .next { s with status := .haltedNormally } ∧
    (encode (.halt x)).toNat = 0xe0 + x.toNat ∧ disassemble (encode (.halt x)) = "halt" ∧
    (Fetches s (encode (.halt x)) →
      step s = .next { s with status := .haltedNormally, steps := s.steps + 1 })

/-- R161, R171: the illegal opcode: the status becomes `Faulted(IllegalInstruction)` and nothing else
changes but the count. That `pc` stays is the spec's decision D4 (log entry 6); the exact string, with
its trailing space, is R92 and its decision D21 (log entry 11). -/
def Obligations.IllegalOpcodeFaults : Prop :=
  ∀ (s : State) (x : Addr),
    exec (.illegal x) s = .next { s with status := .faulted .illegalInstruction } ∧
    (encode (.illegal x)).toNat = 0xc0 + x.toNat ∧ disassemble (encode (.illegal x)) = "??? " ∧
    (Fetches s (encode (.illegal x)) →
      step s = .next { s with status := .faulted .illegalInstruction, steps := s.steps + 1 })

/-- R86: the address bits of `halt` and of the illegal opcode are ignored: two words of one of these
opcodes execute and render alike. The canonical `halt` is 0xe0. -/
def Obligations.AddressBitsOfHaltAndIllegalAreIgnored : Prop :=
  encode (.halt 0) = 0xe0#8 ∧
  ∀ (v w : Byte), opcode v = opcode w → 6 ≤ (opcode v).toNat →
    disassemble v = disassemble w ∧ ∀ s : State, exec (decode v) s = exec (decode w) s

/-! ### spec/60_exceptions.md: faults, terminal states, observation -/

/-- R85: the illegal encodings are exactly the 32 words 0xc0 to 0xdf, whatever the state. -/
def Obligations.IllegalWordsAreExactlyC0ToDF : Prop :=
  ∀ (s : State) (w : Byte), Fetches s w →
    ∃ t, step s = .next t ∧
      (t.status = .faulted .illegalInstruction ↔ 0xc0 ≤ w.toNat ∧ w.toNat ≤ 0xdf)

/-- R172: `IllegalWrite`: its cause, and the state it leaves. -/
def Obligations.IllegalWriteCauseAndState : Prop :=
  ∀ (s : State) (w : Byte), Fetches s w →
    ∃ t, step s = .next t ∧
      (t.status = .faulted .illegalWrite ↔ opcode w = 3 ∧ (address w).toNat < 24) ∧
      (t.status = .faulted .illegalWrite →
        t = { s with status := .faulted .illegalWrite, steps := s.steps + 1 })

/-- R173: `ProgramCounterOutOfRange`: its cause, the state it leaves, and that a run reaches it. That
its cycle is counted once is R115 and the spec's decision D5 (log entry 7). -/
def Obligations.RangeFaultCauseAndState : Prop :=
  (∀ (s : State) (w : Byte), Fetches s w →
    ∃ t u, step s = .next t ∧ exec (decode w) s = .next u ∧
      (t.status = .faulted .programCounterOutOfRange ↔
        s.pc.toNat = 31 ∧ ((opcode w).toNat ≤ 2 ∨ (opcode w = 3 ∧ 24 ≤ (address w).toNat) ∨
          (opcode w = 5 ∧ s.acc.getLsbD 7 = false))) ∧
      (t.status = .faulted .programCounterOutOfRange →
        t = { u with status := .faulted .programCounterOutOfRange, steps := s.steps + 1 } ∧
        t.pc.toNat = 32)) ∧
  (∃ (rom : Config.RomImage) (n : Nat) (t : State),
    EndsAt (State.resetWith rom) n t ∧ t.status = .faulted .programCounterOutOfRange)

/-- R189: the complete list of what ends a run: the cycle leaves the machine `Running` exactly when
its instruction and `pc` are not on the list. -/
def Obligations.OnlyTheListedCasesEndARun : Prop :=
  ∀ (s : State) (w : Byte), Fetches s w →
    ∃ t, step s = .next t ∧ (t.status = .running ↔ goesOn s w = true)

/-- R174: the five status codes (decision D6, log entry 10), which tell the five values apart. -/
def Obligations.StatusCodesTellTheStatusesApart : Prop :=
  statusCode .running = 0 ∧ statusCode .haltedNormally = 1 ∧
  statusCode (.faulted .illegalInstruction) = 2 ∧ statusCode (.faulted .illegalWrite) = 3 ∧
  statusCode (.faulted .programCounterOutOfRange) = 4 ∧
  ∀ p q : Status, statusCode p = statusCode q → p = q

/-- R186: the trace tuple of every cycle, the halting and faulting ones included (decision D14, log
entry 13); a terminal state offers none. -/
def Obligations.EveryCycleHasItsTrace : Prop :=
  (∀ (s : State) (w : Byte), Fetches s w → ∃ t, step s = .next t ∧
    traceOf s t = some { pcBefore := s.pc, word := w, text := disassemble w, accAfter := t.acc }) ∧
  (∀ s t : State, s.status ≠ .running → traceOf s t = none)

/-! ### spec/10_state.md: the state, its invariant, who touches what -/

/-- The invariant of the states of a run is kept by every step (R24, R27, R173, R175; what it says of
`pc` after `halt` and the illegal opcode rests on the decisions D3 and D4, log entry 6; the canonical
form of the memory is the model's, log entry 3; a terminal state steps to itself, D11, log entry 8). -/
def Obligations.EveryStepKeepsTheInvariant : Prop :=
  ∀ s t : State, Safety.Inv s → step s = .next t → Safety.Inv t

/-- The invariant holds right after reset, with the empty program (log entry 1) and with any
image. The canonical form of the memory is the model's (log entry 3). -/
def Obligations.ResetMeetsTheInvariant : Prop :=
  Safety.Inv State.reset ∧ ∀ rom : Config.RomImage, Safety.Inv (State.resetWith rom)

/-- R22, who writes `A`: a step changes it only by `ld`, `sub` or `add` (a terminal state steps to
itself: D11, log entry 8). -/
def Obligations.OnlyLoadAndArithmeticChangeTheAccumulator : Prop :=
  ∀ s t : State, step s = .next t → t.acc ≠ s.acc →
    s.status = .running ∧ (opcode (s.cell s.pc.toNat)).toNat ≤ 2

/-- R22, who reads `A`: with another value in `A`, `ld` gives the same state; `b`, `halt`, the
illegal opcode, and `bneg` when bit 7 is the same, give the same state but for `A` itself. -/
def Obligations.AccumulatorIsReadOnlyAsListed : Prop :=
  ∀ (s : State) (v : Byte) (ad : Addr),
    exec (.ld ad) { s with acc := v } = exec (.ld ad) s ∧
    ∀ (i : Instr) (t : State),
      (i = .b ad ∨ i = .halt ad ∨ i = .illegal ad ∨
        (i = .bneg ad ∧ v.getLsbD 7 = s.acc.getLsbD 7)) →
      exec i s = .next t → exec i { s with acc := v } = .next { t with acc := v }

/-- R30: no instruction reads `steps`: a run from a state with a larger count goes through the same
states but for the count. That the count never wraps is the spec's decision D2 (log entry 5); steps
past the end of a run answer the state itself (D11, log entry 8). -/
def Obligations.StepCounterInfluencesNothing : Prop :=
  ∀ (n k : Nat) (s t : State), runFor n s = .next t →
    runFor n { s with steps := s.steps + k } = .next { t with steps := t.steps + k }

/-! ### spec/70_reset_and_hazards.md: reset, the end of a run, the interface -/

/-- R200, R202: what a reset leaves, from any state (that a reset is an event usable in any state is
the spec's decision D9, log entry 12; that every RAM cell is 0 is its decision D15, log entry 17;
`steps` is derived, log entry 19; the canonical form of the memory is the model's, log entry 3). -/
def Obligations.ResetGivesTheResetValues : Prop :=
  ∀ (rom : Config.RomImage) (before : State),
    ∃ t, State.applyReset rom before = t ∧ t.acc = 0 ∧ t.pc = 0 ∧ t.status = .running ∧
      t.steps = 0 ∧ RomHolds rom t ∧ (∀ a, 24 ≤ a → t.cell a = 0) ∧ t.mem.wf = true

/-- The model's choice for `State.reset`, which takes no image: the empty program, padded with 0x00
(decision D7; log entry 1). -/
def Obligations.ResetWithoutImageIsTheEmptyProgram : Prop :=
  paddedImage [] = some (Vector.replicate 24 0) ∧
  State.reset = State.resetWith (Vector.replicate 24 0)

/-- R201: the entry point is address 0: the first cycle after reset fetches `rom_image[0]`. -/
def Obligations.FirstCycleFetchesImageCellZero : Prop :=
  ∀ rom : Config.RomImage, (State.resetWith rom).pc = 0 ∧ Fetches (State.resetWith rom) rom[0]

/-- R115, R205: the end of a run is unique, and the outcome there counts exactly the cycles taken.
That the cycle of a range fault is counted once is the spec's decision D5 (log entry 7); that the count starts
at 0 is derived in R35 (log entry 19). -/
def Obligations.EndOfRunIsUniqueAndCountsCycles : Prop :=
  ∀ (rom : Config.RomImage) (n : Nat) (t : State), EndsAt (State.resetWith rom) n t →
    t.steps = n ∧
    t.runOutcome = some { status := t.status, steps := n, acc := t.acc, ram := t.ram } ∧
    ∀ (n' : Nat) (t' : State), EndsAt (State.resetWith rom) n' t' → n' = n ∧ t' = t

/-- R36, R206: the run outcome exists exactly in a terminal state and shows the status, the count,
`A` and the eight RAM cells. -/
def Obligations.RunOutcomeExistsExactlyAtTheEnd : Prop :=
  ∀ s : State, (s.runOutcome = none ↔ s.status = .running) ∧
    ∀ o, s.runOutcome = some o →
      o.status = s.status ∧ o.steps = s.steps ∧ o.acc = s.acc ∧ o.ram.length = 8 ∧
        ∀ k, k < 8 → o.ram[k]? = some (s.cell (24 + k))

/-- R118, R119, R205: a bounded executor's report from reset. No fuel stops the model. The report is
`ended` exactly from the end of the run on, with the outcome at that end (before it the fuel is
exhausted), so an ended report is the same with more fuel. Past the end of a run this rests on a step
of a terminal state answering that state, the model's choice between the two answers R110 and D11
allow (log entry 8). -/
def Obligations.ReportIsEndedExactlyFromTheEndOfTheRunOn : Prop :=
  ∀ (rom : Config.RomImage) (fuel : Nat),
    report fuel (State.resetWith rom) ≠ .stopped ∧
    (∀ o : RunOutcome, report fuel (State.resetWith rom) = .ended o ↔
      ∃ n t, n ≤ fuel ∧ EndsAt (State.resetWith rom) n t ∧ t.runOutcome = some o) ∧
    ∀ (o : RunOutcome) (more : Nat), report fuel (State.resetWith rom) = .ended o →
      report (fuel + more) (State.resetWith rom) = .ended o

/-- The model's own interface (log entry 18): a word placed for the next fetch is what the next step
runs, in every state, and the table word decodes to the same instruction. -/
def Obligations.PlacedWordIsTheNextToRun : Prop :=
  ∀ (s : State) (w : Nat), w < 256 →
    decodeTableWord 8 w = some (decode (BitVec.ofNat 8 w)) ∧
    Fetches (s.withFetchWord 8 w) (BitVec.ofNat 8 w)
end

