-- ==== Sys2Proof/Laws/Codec.lean ====
section
/-! SUPPORT. The field extractors and the word they come from. -/

namespace Sys2Proof

theorem opcode_toNat (w : Byte) : (opcode w).toNat = w.toNat / 32 := by
  have := w.isLt
  simp [opcode, BitVec.extractLsb'_toNat, Nat.shiftRight_eq_div_pow]
  omega

theorem address_toNat (w : Byte) : (address w).toNat = w.toNat % 32 := by
  simp [address, BitVec.extractLsb'_toNat]

theorem joinFields_toNat (op : Opcode) (ad : Addr) :
    (joinFields op ad).toNat = op.toNat * 32 + ad.toNat := by
  have := ad.isLt
  rw [joinFields, BitVec.toNat_append, Nat.shiftLeft_eq, Nat.mul_comm, ← Nat.two_pow_add_eq_or_of_lt this]

@[simp] theorem opcode_joinFields (op : Opcode) (ad : Addr) : opcode (joinFields op ad) = op := by
  apply BitVec.eq_of_toNat_eq
  have := ad.isLt
  rw [opcode_toNat, joinFields_toNat]
  omega

@[simp] theorem address_joinFields (op : Opcode) (ad : Addr) : address (joinFields op ad) = ad := by
  apply BitVec.eq_of_toNat_eq
  have := ad.isLt
  rw [address_toNat, joinFields_toNat]
  omega

/-- The opcode field as a number picks one of eight cases. -/
theorem opcode_cases (op : Opcode) :
    op = 0 ∨ op = 1 ∨ op = 2 ∨ op = 3 ∨ op = 4 ∨ op = 5 ∨ op = 6 ∨ op = 7 := by
  revert op
  decide

/-- What the decoder does, once: the constructor's opcode is the word's and its argument is the
word's address field. -/
theorem decode_fields (w : Byte) :
    (decode w).opcodeField = opcode w ∧ (decode w).addressField = address w := by
  unfold decode
  rcases opcode_cases (opcode w) with h | h | h | h | h | h | h | h <;>
    rw [h] <;> exact ⟨rfl, rfl⟩

/-- A 5-bit address is in range beside every opcode. -/
theorem fieldsInRange_addr {op : Nat} (h : op ≤ 7) (ad : Addr) :
    fieldsInRange op ad.toNat = true := by
  have := ad.isLt
  simp [fieldsInRange, h]
  omega

end Sys2Proof
end

