-- ==== Sys2Proof/Laws/Memory.lean ====
section
/-! SUPPORT. What the memory operations do: a read after a write, and the canonical form, which every
operation keeps. -/

namespace Sys2Proof.Machine

open Sys2Proof

/-! ### Reads after writes (any list, canonical or not) -/

theorem Memory.read_cons (b : Nat) (u : Byte) (m : Memory) (x : Nat) :
    Memory.read ((b, u) :: m) x = if x = b then u else m.read x := rfl

theorem Memory.read_insertCell (m : Memory) (a : Nat) (v : Byte) (x : Nat) :
    (Memory.insertCell m a v).read x = if x = a then v else m.read x := by
  induction m with
  | nil => rfl
  | cons c m ih =>
    obtain ⟨b, u⟩ := c
    by_cases h1 : a < b
    · simp only [Memory.insertCell, if_pos h1, Memory.read_cons]
    · by_cases h2 : a = b
      · subst h2
        simp only [Memory.insertCell, if_neg h1, if_true, Memory.read_cons]
        split_ifs <;> rfl
      · simp only [Memory.insertCell, if_neg h1, if_neg h2, Memory.read_cons, ih]
        split_ifs with hb ha
        · exact absurd (ha.symm.trans hb) h2
        all_goals rfl

theorem Memory.read_eraseCell (m : Memory) (a x : Nat) :
    (Memory.eraseCell m a).read x = if x = a then Config.unlistedCell else m.read x := by
  induction m with
  | nil => simp [Memory.eraseCell, Memory.read]
  | cons c m ih =>
    obtain ⟨b, u⟩ := c
    by_cases h1 : a = b
    · subst h1
      simp only [Memory.eraseCell, if_true, Memory.read_cons, ih]
      split_ifs <;> rfl
    · simp only [Memory.eraseCell, if_neg h1, Memory.read_cons, ih]
      split_ifs with hb ha
      · exact absurd (ha.symm.trans hb) h1
      all_goals rfl

/-- What a write does, once: the cell written reads as the byte, every other cell as before. -/
theorem Memory.read_write (m : Memory) (a : Nat) (v : Byte) (x : Nat) :
    (m.write a v).read x = if x = a then v else m.read x := by
  unfold Memory.write
  split_ifs with hv hx hx <;> simp_all [Memory.read_insertCell, Memory.read_eraseCell]

@[simp] theorem Memory.read_write_same (m : Memory) (a : Nat) (v : Byte) :
    (m.write a v).read a = v := by simp [Memory.read_write]

theorem Memory.read_write_of_ne (m : Memory) {a x : Nat} (v : Byte) (h : x ≠ a) :
    (m.write a v).read x = m.read x := by simp [Memory.read_write, h]

/-- What writing a list does: cell `a + k` reads as byte `k`, every other cell as before. -/
theorem Memory.read_writeList (vs : List Byte) (m : Memory) (a x : Nat) :
    (Memory.writeList m a vs).read x =
      if h : a ≤ x ∧ x - a < vs.length then vs[x - a]'h.2 else m.read x := by
  induction vs generalizing m a with
  | nil => simp [Memory.writeList]
  | cons v vs ih =>
    rw [Memory.writeList, ih]
    by_cases hx : x = a
    · subst hx
      simp
    · by_cases h : a + 1 ≤ x ∧ x - (a + 1) < vs.length
      · have h' : a ≤ x ∧ x - a < (v :: vs).length := by simp; omega
        have hk : x - a = (x - (a + 1)) + 1 := by omega
        simp only [h, h', dite_true, and_self]
        simp [hk]
      · have h' : ¬ (a ≤ x ∧ x - a < (v :: vs).length) := by simp; omega
        rw [dif_neg h, dif_neg h', Memory.read_write_of_ne _ _ hx]

/-! ### The canonical form -/

theorem Memory.wfFrom_cons {lo a : Nat} {v : Byte} {m : Memory} :
    Memory.wfFrom lo ((a, v) :: m) = true ↔
      lo ≤ a ∧ a < Config.memSize ∧ v ≠ Config.unlistedCell ∧ Memory.wfFrom (a + 1) m = true := by
  simp [Memory.wfFrom, and_assoc]

theorem Memory.wfFrom_mono {lo lo' : Nat} {m : Memory} (h : lo' ≤ lo)
    (hm : Memory.wfFrom lo m = true) : Memory.wfFrom lo' m = true := by
  cases m with
  | nil => rfl
  | cons c m =>
    obtain ⟨a, v⟩ := c
    rw [Memory.wfFrom_cons] at hm ⊢
    exact ⟨by omega, hm.2⟩

theorem Memory.wfFrom_insertCell {lo : Nat} {m : Memory} {a : Nat} {v : Byte}
    (hm : Memory.wfFrom lo m = true) (hlo : lo ≤ a) (ha : a < Config.memSize)
    (hv : v ≠ Config.unlistedCell) : Memory.wfFrom lo (Memory.insertCell m a v) = true := by
  induction m generalizing lo with
  | nil => exact Memory.wfFrom_cons.2 ⟨hlo, ha, hv, rfl⟩
  | cons c m ih =>
    obtain ⟨b, u⟩ := c
    have hc := Memory.wfFrom_cons.1 hm
    unfold Memory.insertCell
    split_ifs with h1 h2
    · exact Memory.wfFrom_cons.2 ⟨hlo, ha, hv, Memory.wfFrom_cons.2 ⟨h1, hc.2⟩⟩
    · subst h2
      exact Memory.wfFrom_cons.2 ⟨hlo, ha, hv, hc.2.2.2⟩
    · exact Memory.wfFrom_cons.2 ⟨hc.1, hc.2.1, hc.2.2.1, ih hc.2.2.2 (by omega)⟩

theorem Memory.wfFrom_eraseCell {lo : Nat} {m : Memory} (a : Nat)
    (hm : Memory.wfFrom lo m = true) : Memory.wfFrom lo (Memory.eraseCell m a) = true := by
  induction m generalizing lo with
  | nil => rfl
  | cons c m ih =>
    obtain ⟨b, u⟩ := c
    have hc := Memory.wfFrom_cons.1 hm
    unfold Memory.eraseCell
    split_ifs with h
    · exact Memory.wfFrom_mono (by omega) (ih hc.2.2.2)
    · exact Memory.wfFrom_cons.2 ⟨hc.1, hc.2.1, hc.2.2.1, ih hc.2.2.2⟩

/-- A write to a cell of the address space keeps the canonical form. -/
theorem Memory.wf_write {m : Memory} {a : Nat} (v : Byte) (hm : m.wf = true)
    (ha : a < Config.memSize) : (m.write a v).wf = true := by
  unfold Memory.write Memory.wf
  split_ifs with hv
  · exact Memory.wfFrom_eraseCell a hm
  · exact Memory.wfFrom_insertCell hm (Nat.zero_le a) ha hv

/-- Writing a list inside the address space keeps the canonical form. -/
theorem Memory.wf_writeList {vs : List Byte} {m : Memory} {a : Nat} (hm : m.wf = true)
    (ha : a + vs.length ≤ Config.memSize) : (Memory.writeList m a vs).wf = true := by
  induction vs generalizing m a with
  | nil => exact hm
  | cons v vs ih =>
    simp only [List.length_cons] at ha
    exact ih (Memory.wf_write v hm (by omega)) (by omega)

/-- An operand address is a cell of the address space (spec/20_memory.md R55). -/
theorem addr_lt_memSize (ad : Addr) : ad.toNat < Config.memSize := ad.isLt

/-- What a store does, once: at a RAM address it answers the memory with that one cell written, at a
ROM address the failure. -/
theorem Memory.store_eq (m : Memory) (ad : Addr) (v : Byte) :
    m.store ad v =
      if 24 ≤ ad.toNat then .ok (m.write ad.toNat v) else .error .illegalWrite := by
  by_cases h : 24 ≤ ad.toNat <;> simp [Memory.store, isRam, Config.ramBase, h]

theorem Memory.wf_store {m m' : Memory} {ad : Addr} {v : Byte} (hm : m.wf = true)
    (h : m.store ad v = .ok m') : m'.wf = true := by
  rw [Memory.store_eq] at h
  split_ifs at h
  cases h
  exact Memory.wf_write v hm (addr_lt_memSize ad)

/-- What a wide read does, once: below 32 it answers the cell, above 31 the refusal. -/
theorem Memory.loadWide_eq (m : Memory) (a : Nat) :
    m.loadWide a = if a ≤ 31 then .ok (m.read a) else .error (.addressOutOfRange a) := by
  simp [Memory.loadWide, Config.memSize, Nat.lt_succ_iff]

/-- The memory of `State.reset` is in canonical form. -/
theorem State.reset_mem_wf : State.reset.mem.wf = true := rfl

/-- The memory after a reset with an image is in canonical form. -/
theorem State.resetWith_mem_wf (rom : Config.RomImage) : (State.resetWith rom).mem.wf = true :=
  Memory.wf_writeList rfl (by simp [Config.memSize])

end Sys2Proof.Machine
end

