-- ==== Sys2Proof/Laws/State.lean ====
section
/-! SUPPORT. One lemma per field per update of `State`, each true by `rfl`. -/

namespace Sys2Proof.Machine

@[simp] theorem State.setAcc_acc (s : State) (v : Byte) : (s.setAcc v).acc = v := rfl
@[simp] theorem State.setAcc_pc (s : State) (v : Byte) : (s.setAcc v).pc = s.pc := rfl
@[simp] theorem State.setAcc_status (s : State) (v : Byte) : (s.setAcc v).status = s.status := rfl
@[simp] theorem State.setAcc_steps (s : State) (v : Byte) : (s.setAcc v).steps = s.steps := rfl
@[simp] theorem State.setAcc_mem (s : State) (v : Byte) : (s.setAcc v).mem = s.mem := rfl

@[simp] theorem State.setPc_acc (s : State) (t : ProgramCounter) : (s.setPc t).acc = s.acc := rfl
@[simp] theorem State.setPc_pc (s : State) (t : ProgramCounter) : (s.setPc t).pc = t := rfl
@[simp] theorem State.setPc_status (s : State) (t : ProgramCounter) : (s.setPc t).status = s.status := rfl
@[simp] theorem State.setPc_steps (s : State) (t : ProgramCounter) : (s.setPc t).steps = s.steps := rfl
@[simp] theorem State.setPc_mem (s : State) (t : ProgramCounter) : (s.setPc t).mem = s.mem := rfl

@[simp] theorem State.setMem_acc (s : State) (m : Memory) : (s.setMem m).acc = s.acc := rfl
@[simp] theorem State.setMem_pc (s : State) (m : Memory) : (s.setMem m).pc = s.pc := rfl
@[simp] theorem State.setMem_status (s : State) (m : Memory) : (s.setMem m).status = s.status := rfl
@[simp] theorem State.setMem_steps (s : State) (m : Memory) : (s.setMem m).steps = s.steps := rfl
@[simp] theorem State.setMem_mem (s : State) (m : Memory) : (s.setMem m).mem = m := rfl

@[simp] theorem State.setStatus_acc (s : State) (st : Status) : (s.setStatus st).acc = s.acc := rfl
@[simp] theorem State.setStatus_pc (s : State) (st : Status) : (s.setStatus st).pc = s.pc := rfl
@[simp] theorem State.setStatus_status (s : State) (st : Status) : (s.setStatus st).status = st := rfl
@[simp] theorem State.setStatus_steps (s : State) (st : Status) : (s.setStatus st).steps = s.steps := rfl
@[simp] theorem State.setStatus_mem (s : State) (st : Status) : (s.setStatus st).mem = s.mem := rfl

@[simp] theorem State.advance_acc (s : State) : s.advance.acc = s.acc := rfl
@[simp] theorem State.advance_pc (s : State) : s.advance.pc = s.pc + 1 := rfl
@[simp] theorem State.advance_status (s : State) : s.advance.status = s.status := rfl
@[simp] theorem State.advance_steps (s : State) : s.advance.steps = s.steps := rfl
@[simp] theorem State.advance_mem (s : State) : s.advance.mem = s.mem := rfl

@[simp] theorem State.raise_acc (s : State) (r : FaultReason) : (s.raise r).acc = s.acc := rfl
@[simp] theorem State.raise_pc (s : State) (r : FaultReason) : (s.raise r).pc = s.pc := rfl
@[simp] theorem State.raise_status (s : State) (r : FaultReason) : (s.raise r).status = .faulted r := rfl
@[simp] theorem State.raise_steps (s : State) (r : FaultReason) : (s.raise r).steps = s.steps := rfl
@[simp] theorem State.raise_mem (s : State) (r : FaultReason) : (s.raise r).mem = s.mem := rfl

@[simp] theorem State.haltRun_acc (s : State) : s.haltRun.acc = s.acc := rfl
@[simp] theorem State.haltRun_pc (s : State) : s.haltRun.pc = s.pc := rfl
@[simp] theorem State.haltRun_status (s : State) : s.haltRun.status = .haltedNormally := rfl
@[simp] theorem State.haltRun_steps (s : State) : s.haltRun.steps = s.steps := rfl
@[simp] theorem State.haltRun_mem (s : State) : s.haltRun.mem = s.mem := rfl

@[simp] theorem State.countStep_acc (s : State) : s.countStep.acc = s.acc := rfl
@[simp] theorem State.countStep_pc (s : State) : s.countStep.pc = s.pc := rfl
@[simp] theorem State.countStep_status (s : State) : s.countStep.status = s.status := rfl
@[simp] theorem State.countStep_steps (s : State) : s.countStep.steps = s.steps + 1 := rfl
@[simp] theorem State.countStep_mem (s : State) : s.countStep.mem = s.mem := rfl

@[simp] theorem State.placeWord_acc (s : State) (w : Byte) : (s.placeWord w).acc = s.acc := rfl
@[simp] theorem State.placeWord_pc (s : State) (w : Byte) : (s.placeWord w).pc = s.fetchablePc := rfl
@[simp] theorem State.placeWord_status (s : State) (w : Byte) : (s.placeWord w).status = .running := rfl
@[simp] theorem State.placeWord_steps (s : State) (w : Byte) : (s.placeWord w).steps = s.steps := rfl
@[simp] theorem State.placeWord_mem (s : State) (w : Byte) :
    (s.placeWord w).mem = s.mem.write s.fetchablePc.toNat w := rfl

@[simp] theorem State.resetWith_acc (rom : Config.RomImage) : (State.resetWith rom).acc = 0 := rfl
@[simp] theorem State.resetWith_pc (rom : Config.RomImage) : (State.resetWith rom).pc = 0 := rfl
@[simp] theorem State.resetWith_status (rom : Config.RomImage) :
    (State.resetWith rom).status = .running := rfl
@[simp] theorem State.resetWith_steps (rom : Config.RomImage) : (State.resetWith rom).steps = 0 := rfl
@[simp] theorem State.resetWith_mem (rom : Config.RomImage) :
    (State.resetWith rom).mem = Memory.writeList [] 0 rom.toList := rfl

/-- The execute arms as next states, one per constructor; the two that branch say on what. -/
theorem exec_ld (ad : Addr) (s : State) :
    exec (.ld ad) s = .next (s.setAcc (s.operand ad)).advance := rfl
theorem exec_sub (ad : Addr) (s : State) :
    exec (.sub ad) s = .next (s.setAcc (wrappingSub s.acc (s.operand ad))).advance := rfl
theorem exec_add (ad : Addr) (s : State) :
    exec (.add ad) s = .next (s.setAcc (wrappingAdd s.acc (s.operand ad))).advance := rfl
theorem exec_b (ad : Addr) (s : State) : exec (.b ad) s = .next (s.setPc (branchTarget ad)) := rfl
theorem exec_illegal (ad : Addr) (s : State) :
    exec (.illegal ad) s = .next (s.raise .illegalInstruction) := rfl
theorem exec_halt (ad : Addr) (s : State) : exec (.halt ad) s = .next s.haltRun := rfl

end Sys2Proof.Machine
end

