-- ==== Sys2Proof/Laws/Cycle.lean ====
section
/-! SUPPORT. What each shared operation of the cycle can do, said once. -/

namespace Sys2Proof.Machine

open Sys2Proof

theorem State.takesCycle_eq_true {s : State} : s.takesCycle = true ↔ s.status = .running := by
  simp [State.takesCycle]

/-- A fetch answers the cell at `pc`, or the refusal when `pc` is above 31. -/
theorem State.fetch_eq (s : State) :
    s.fetch = if s.pc.toNat ≤ 31 then .ok (s.cell s.pc.toNat)
      else .error (.addressOutOfRange s.pc.toNat) :=
  Memory.loadWide_eq _ _

/-- The range check changes at most the status, and that only of a `Running` state with `pc` above
31. -/
theorem State.rangeCheck_eq (s : State) :
    s.rangeCheck = { s with status :=
      if s.status = .running ∧ 31 < s.pc.toNat then .faulted .programCounterOutOfRange
      else s.status } := by
  unfold State.rangeCheck
  split_ifs <;> rfl

@[simp] theorem State.rangeCheck_acc (s : State) : s.rangeCheck.acc = s.acc := by
  rw [State.rangeCheck_eq]
@[simp] theorem State.rangeCheck_pc (s : State) : s.rangeCheck.pc = s.pc := by
  rw [State.rangeCheck_eq]
@[simp] theorem State.rangeCheck_steps (s : State) : s.rangeCheck.steps = s.steps := by
  rw [State.rangeCheck_eq]
@[simp] theorem State.rangeCheck_mem (s : State) : s.rangeCheck.mem = s.mem := by
  rw [State.rangeCheck_eq]

/-- If the end of a cycle answers a next state, the execute part did, and the two differ by the range
check and the count. -/
theorem endCycle_eq_next {o : Host.Outcome State Fault Refusal} {u : State}
    (h : endCycle o = .next u) : ∃ t, o = .next t ∧ u = t.rangeCheck.countStep := by
  cases o with
  | next t => exact ⟨t, rfl, by cases h; rfl⟩
  | fault r => cases h
  | refused r => cases h

/-- The operand of `ld`, `sub` and `add` is the cell its address field names. -/
theorem State.operand_eq (s : State) (ad : Addr) : s.operand ad = s.cell ad.toNat := rfl

/-- A branch target is the address field, value unchanged. -/
@[simp] theorem branchTarget_toNat (ad : Addr) : (branchTarget ad).toNat = ad.toNat := by
  have := ad.isLt
  simp [branchTarget]
  omega

/-- Sequential advance does not wrap at 31 (spec/10_state.md R27). -/
theorem State.advance_pc_toNat {s : State} (h : s.pc.toNat ≤ 31) :
    s.advance.pc.toNat = s.pc.toNat + 1 := by
  simp only [State.advance_pc, BitVec.toNat_add]
  have : (1 : ProgramCounter).toNat = 1 := rfl
  omega

/-- The place a word is put for the next fetch is a cell, and it is `pc` whenever `pc` is one. -/
theorem State.fetchablePc_eq (s : State) :
    s.fetchablePc = if s.pc.toNat ≤ 31 then s.pc else 0 := by
  simp [State.fetchablePc, Config.memSize, Nat.lt_succ_iff]

theorem State.fetchablePc_le (s : State) : s.fetchablePc.toNat ≤ 31 := by
  rw [State.fetchablePc_eq]
  split_ifs with h
  · exact h
  · decide

/-- After a word is placed, the fetch reads it. -/
theorem State.placeWord_fetch (s : State) (w : Byte) : (s.placeWord w).fetch = .ok w := by
  rw [State.fetch_eq]
  simp [State.fetchablePc_le, State.cell]

/-- What `st` can do, once: it stores and goes on, or it takes the fault. -/
theorem execSt_eq (ad : Addr) (s : State) :
    execSt ad s =
      if 24 ≤ ad.toNat then .next (s.setMem (s.mem.write ad.toNat s.acc)).advance
      else .next (s.raise .illegalWrite) := by
  unfold execSt
  rw [Memory.store_eq]
  split_ifs <;> rfl

end Sys2Proof.Machine
end

