-- ==== Sys2Proof/Laws/PerInstr.lean ====
section
/-! SUPPORT. The family `EncodesOwnFields`: what is true of every instruction as a term. -/

namespace Sys2Proof.Laws.EncodesOwnFields

/-- The word of an instruction has the instruction's opcode and address fields, and the instruction
is well formed (spec/30_encoding.md R83). -/
def Statement (i : Instr) : Prop :=
  opcode (encode i) = i.opcodeField ∧ address (encode i) = i.addressField ∧ i.wellFormed = true

theorem ld (ad : Addr) : Statement (.ld ad) :=
  ⟨opcode_joinFields _ _, address_joinFields _ _, fieldsInRange_addr (by decide) _⟩
theorem sub (ad : Addr) : Statement (.sub ad) :=
  ⟨opcode_joinFields _ _, address_joinFields _ _, fieldsInRange_addr (by decide) _⟩
theorem add (ad : Addr) : Statement (.add ad) :=
  ⟨opcode_joinFields _ _, address_joinFields _ _, fieldsInRange_addr (by decide) _⟩
theorem st (ad : Addr) : Statement (.st ad) :=
  ⟨opcode_joinFields _ _, address_joinFields _ _, fieldsInRange_addr (by decide) _⟩
theorem b (ad : Addr) : Statement (.b ad) :=
  ⟨opcode_joinFields _ _, address_joinFields _ _, fieldsInRange_addr (by decide) _⟩
theorem bneg (ad : Addr) : Statement (.bneg ad) :=
  ⟨opcode_joinFields _ _, address_joinFields _ _, fieldsInRange_addr (by decide) _⟩
theorem illegal (ignored : Addr) : Statement (.illegal ignored) :=
  ⟨opcode_joinFields _ _, address_joinFields _ _, fieldsInRange_addr (by decide) _⟩
theorem halt (ignored : Addr) : Statement (.halt ignored) :=
  ⟨opcode_joinFields _ _, address_joinFields _ _, fieldsInRange_addr (by decide) _⟩

end Sys2Proof.Laws.EncodesOwnFields
end

