-- ==== Sys2Proof/Laws/Run.lean ====
section
/-! SUPPORT. Runs, one step at a time. -/

namespace Sys2Proof.Safety

open Sys2Proof.Machine

@[simp] theorem runFor_zero (s : State) : runFor 0 s = .next s := rfl

/-- The same of any machine behind the host's interface. -/
theorem coreRun_succ (M : Host.Core) {s t : M.State} (n : Nat) (h : M.step s = .next t) :
    M.run (n + 1) s = M.run n t := by
  simp only [Host.Core.run, h]

theorem coreRun_succ_refused (M : Host.Core) {s : M.State} {r : M.Refusal} (n : Nat)
    (h : M.step s = .refused r) : M.run (n + 1) s = .refused r := by
  simp only [Host.Core.run, h]

/-- After a step that answers a next state, the run goes on from there. -/
theorem runFor_succ {s t : State} (n : Nat) (h : step s = .next t) :
    runFor (n + 1) s = runFor n t :=
  coreRun_succ Sys2Proof.core n h

/-- After a step that is refused, the run is refused. -/
theorem runFor_succ_refused {s : State} {r : Refusal} (n : Nat) (h : step s = .refused r) :
    runFor (n + 1) s = .refused r :=
  coreRun_succ_refused Sys2Proof.core n h

end Sys2Proof.Safety
end

