-- ==== Sys2Proof/Tests/Slice0.lean ====
section
/-! SUPPORT. Tests. Expected values are those of spec/95_test_vectors.md (the section is named at
each test) or worked out by hand from the rule named. The `witness_` theorems show, for every
statement with hypotheses, a state and operands that meet them. -/

namespace Sys2Proof.Tests

open Sys2Proof.Machine Sys2Proof.Safety

/-! ### Well-formedness: ill-formed terms are refused -/

theorem test_wf_refuses_opcode_8 : fieldsInRange 8 0 = false := by decide
theorem test_wf_refuses_address_32 : fieldsInRange 0 32 = false := by decide
theorem test_encode_refuses_address_32 : encodeFields 4 32 = none := by decide
theorem test_image_refuses_25_bytes : imageComplete (List.replicate 25 0) = false := by decide
theorem test_image_accepts_24_bytes : imageComplete (List.replicate 24 0) = true := by decide
theorem test_decode_refuses_no_bytes : decodeBytes [] = .error .noCell := rfl

/-- The canonical form refuses a listed zero, an order that does not rise, and address 32. -/
theorem test_memory_wf_refuses :
    Memory.wf [(24, 0)] = false ∧ Memory.wf [(25, 1), (24, 1)] = false ∧
      Memory.wf [(24, 1), (24, 2)] = false ∧ Memory.wf [(32, 1)] = false ∧
      Memory.wf [(0, 1), (31, 2)] = true := by decide

/-! ### The codec: words written out bit by bit (R84; section 2) -/

theorem test_decode_ld : decode 0b000_11000#8 = .ld 24 := by decide
theorem test_decode_sub : decode 0b001_11111#8 = .sub 31 := by decide
theorem test_decode_add : decode 0b010_00110#8 = .add 6 := by decide
theorem test_decode_st : decode 0b011_10111#8 = .st 23 := by decide
theorem test_decode_b : decode 0b100_00001#8 = .b 1 := by decide
theorem test_decode_bneg : decode 0b101_00101#8 = .bneg 5 := by decide
theorem test_decode_illegal : decode 0b110_11111#8 = .illegal 31 := by decide
theorem test_decode_halt : decode 0b111_00000#8 = .halt 0 := by decide

/-- Section 2: `encode(0, 24) = 0x18`, `encode(3, 0) = 0x60`, `encode(7, 0) = 0xe0`,
`encode(5, 31) = 0xbf`, `encode(6, 5) = 0xc5`. -/
theorem test_encode_fields :
    encodeFields 0 24 = some 0x18 ∧ encodeFields 3 0 = some 0x60 ∧ encodeFields 7 0 = some 0xe0 ∧
      encodeFields 5 31 = some 0xbf ∧ encodeFields 6 5 = some 0xc5 := by decide

/-- Section 2, the renderings. -/
theorem test_disassemble :
    disassemble 0x18 = "ld A, 18" ∧ disassemble 0x3f = "sub A, 1f" ∧
      disassemble 0x46 = "add A, 06" ∧ disassemble 0x77 = "st A, 17" ∧ disassemble 0x81 = "b 01" ∧
      disassemble 0xa5 = "bneg 05" ∧ disassemble 0xc0 = "??? " ∧ disassemble 0xff = "halt" := by
  decide

/-- The table's word of a row, and bits that are more than one instruction. -/
theorem test_decodeTableWord :
    decodeTableWord 8 0x78 = some (.st 24) ∧ decodeTableWord 8 0xc0 = some (.illegal 0) ∧
      decodeTableWord 16 0x0118 = none := by decide

/-! ### Single steps -/

/-- A `Running` state with the given accumulator, program counter and cells, after 7 cycles. -/
def running (a : Byte) (p : ProgramCounter) (cells : List Host.Cell) : State :=
  { acc := a, pc := p, status := .running, steps := 7
    mem := cells.foldl (fun m c => Memory.write m c.1 c.2) [] }

/-- The state a step answers, if it answers one. -/
def afterStep (s : State) : Option State :=
  match step s with
  | .next t => some t
  | .fault _ => none
  | .refused _ => none

/-- The registers after a step. -/
def regsAfter (s : State) : Option (Byte × ProgramCounter × Status × Nat) :=
  (afterStep s).map fun t => (t.acc, t.pc, t.status, t.steps)

/-- Section 3: `ld A, 18` at 2 with `M[24] = 0x9c`. -/
theorem test_ld_ram : regsAfter (running 0x55 2 [(2, 0x18), (24, 0x9c)]) =
    some (0x9c, 3, .running, 8) := by decide
/-- Section 3: the operand is the instruction's own cell. -/
theorem test_ld_own_cell : regsAfter (running 0x00 3 [(3, 0x03)]) =
    some (0x03, 4, .running, 8) := by decide
/-- Section 3: `0x12 - 0x34 = 0xde`: accumulator minus memory. -/
theorem test_sub_order : regsAfter (running 0x12 1 [(1, 0x27), (7, 0x34)]) =
    some (0xde, 2, .running, 8) := by decide
/-- Section 3: `0x80 - 0x01 = 0x7f`. -/
theorem test_sub_signed_overflow : regsAfter (running 0x80 1 [(1, 0x27), (7, 0x01)]) =
    some (0x7f, 2, .running, 8) := by decide
/-- Section 3: `0xff + 0xff = 0xfe`. -/
theorem test_add_wraps : regsAfter (running 0xff 1 [(1, 0x46), (6, 0xff)]) =
    some (0xfe, 2, .running, 8) := by decide
/-- Section 3: at the last cell the addition is done and then the range fault is raised. -/
theorem test_add_last_cell : regsAfter (running 0x07 31 [(31, 0x46), (6, 0x09)]) =
    some (0x10, 32, .faulted .programCounterOutOfRange, 8) := by decide
/-- Section 4: storing the value a ROM cell already holds is still a fault. -/
theorem test_st_rom_faults : afterStep (running 0x64 4 [(4, 0x64)]) =
    some { running 0x64 4 [(4, 0x64)] with status := .faulted .illegalWrite, steps := 8 } := by
  decide
/-- Section 4: zero is stored like any value, and takes the cell off the list. -/
theorem test_st_zero : afterStep (running 0x00 5 [(5, 0x79), (25, 0x33)]) =
    some { running 0x00 6 [(5, 0x79)] with steps := 8 } := by decide
/-- Section 5: a branch at the last cell does not fault. -/
theorem test_b_last_cell : regsAfter (running 0x00 31 [(31, 0x80)]) =
    some (0x00, 0, .running, 8) := by decide
/-- Section 5: a branch into RAM. -/
theorem test_b_to_ram : regsAfter (running 0x5a 3 [(3, 0x9f)]) =
    some (0x5a, 31, .running, 8) := by decide
/-- Section 5: -128 is negative. -/
theorem test_bneg_taken : regsAfter (running 0x80 2 [(2, 0xa5)]) =
    some (0x80, 5, .running, 8) := by decide
/-- Section 5: not taken at the last cell. -/
theorem test_bneg_untaken_last_cell : regsAfter (running 0x01 31 [(31, 0xa0)]) =
    some (0x01, 32, .faulted .programCounterOutOfRange, 8) := by decide
/-- Section 5: all address bits 1, at the last cell: no range fault. -/
theorem test_halt_last_cell : regsAfter (running 0x12 31 [(31, 0xff)]) =
    some (0x12, 31, .haltedNormally, 8) := by decide
/-- Section 5: the illegal opcode. -/
theorem test_illegal : regsAfter (running 0x34 9 [(9, 0xdf)]) =
    some (0x34, 9, .faulted .illegalInstruction, 8) := by decide
/-- Section 5: stepping a halted machine changes nothing, `steps` included. -/
theorem test_terminal_unchanged :
    afterStep { running 0 5 [(5, 0x18)] with status := .haltedNormally } =
      some { running 0 5 [(5, 0x18)] with status := .haltedNormally } := by decide
/-- R55: a fetch above 31 is refused, not wrapped. -/
theorem test_fetch_above_31_refused :
    step { running 0 32 [] with status := .running } = .refused (.addressOutOfRange 32) := rfl
/-- S2 of section 1: `halt` as the first instruction after reset. -/
theorem test_withFetchWord_halt : regsAfter (State.reset.withFetchWord 8 0xe0) =
    some (0, 0, .haltedNormally, 1) := by decide

/-! ### Witnesses: the hypotheses of the statements can be met, clause by clause -/

theorem witness_EncodeFieldsInvertsTheExtractors :
    ((7 : Nat) ≤ 7 ∧ (31 : Nat) ≤ 31) ∧ ¬ ((8 : Nat) ≤ 7 ∧ (0 : Nat) ≤ 31) ∧
      ¬ ((0 : Nat) ≤ 7 ∧ (32 : Nat) ≤ 31) := by decide

theorem witness_WordRangesSelectTheInstruction :
    (0x1f#8).toNat ≤ 0x1f ∧ (0x20 ≤ (0x3f#8).toNat ∧ (0x3f#8).toNat ≤ 0x3f) ∧
      (0x40 ≤ (0x40#8).toNat ∧ (0x40#8).toNat ≤ 0x5f) ∧
      (0x60 ≤ (0x7f#8).toNat ∧ (0x7f#8).toNat ≤ 0x7f) ∧
      (0x80 ≤ (0x80#8).toNat ∧ (0x80#8).toNat ≤ 0x9f) ∧
      (0xa0 ≤ (0xbf#8).toNat ∧ (0xbf#8).toNat ≤ 0xbf) ∧
      (0xc0 ≤ (0xc0#8).toNat ∧ (0xc0#8).toNat ≤ 0xdf) ∧ 0xe0 ≤ (0xff#8).toNat := by decide

theorem witness_StepRunsTheDecodedInstruction :
    Fetches (running 7 31 [(31, 0x46)]) 0x46 ∧ decode 0x46 = .add 6 := ⟨⟨rfl, by decide, rfl⟩, rfl⟩

/-- Both clauses: an `add` at the last cell leaves `pc` at 32, a `halt` there leaves it at 31. -/
theorem witness_RangeCheckChangesStatusOnly :
    (Fetches (running 7 31 [(31, 0x46)]) 0x46 ∧
      exec (decode 0x46) (running 7 31 [(31, 0x46)]) = .next (running 7 32 [(31, 0x46)]) ∧
      31 < (running 7 32 [(31, 0x46)]).pc.toNat) ∧
    (Fetches (running 7 31 [(31, 0xe0)]) 0xe0 ∧
      exec (decode 0xe0) (running 7 31 [(31, 0xe0)]) =
        .next { running 7 31 [(31, 0xe0)] with status := .haltedNormally }) :=
  ⟨⟨⟨rfl, by decide, rfl⟩, rfl, by decide⟩, ⟨rfl, by decide, rfl⟩, rfl⟩

theorem witness_TerminalStateNeverChanges :
    (running 0 5 []).haltRun.status ≠ .running ∧
      ((running 0 5 []).raise .illegalWrite).status ≠ .running := by decide

theorem witness_StepRefinesThePseudocode :
    (running 7 31 []).status = .running ∧ (running 7 31 []).pc.toNat ≤ 31 := by decide

theorem witness_BranchToItselfNeverEnds :
    Fetches (running 7 31 [(31, 0x9f)]) (encode (.b 31)) ∧
      (running 7 31 [(31, 0x9f)]).pc.toNat = (31 : Addr).toNat := ⟨⟨rfl, by decide, rfl⟩, rfl⟩

theorem witness_StepStopsOnlyOnFetchAbove31 :
    ((running 0 32 []).status = .running ∧ 31 < (running 0 32 []).pc.toNat) ∧
      ¬ ((running 0 31 []).status = .running ∧ 31 < (running 0 31 []).pc.toNat) := by decide

/-- Below the last cell and at it. -/
theorem witness_LdLoadsTheCell :
    Fetches (running 0 30 [(30, 0x1f)]) (encode (.ld 31)) ∧
      Fetches (running 0 31 [(31, 0x1f)]) (encode (.ld 31)) :=
  ⟨⟨rfl, by decide, rfl⟩, rfl, by decide, rfl⟩

theorem witness_SubSubtractsTheCell :
    Fetches (running 0 30 [(30, 0x3f)]) (encode (.sub 31)) ∧
      Fetches (running 0 31 [(31, 0x20)]) (encode (.sub 0)) :=
  ⟨⟨rfl, by decide, rfl⟩, rfl, by decide, rfl⟩

theorem witness_AddAddsTheCell :
    Fetches (running 0 30 [(30, 0x5f)]) (encode (.add 31)) ∧
      Fetches (running 0 31 [(31, 0x40)]) (encode (.add 0)) :=
  ⟨⟨rfl, by decide, rfl⟩, rfl, by decide, rfl⟩

/-- The sums 255 and 256, and the differences 0 and -1. -/
theorem witness_ArithmeticWrapsSilently :
    (running 0xfe 0 [(7, 1)]).acc.toNat + ((running 0xfe 0 [(7, 1)]).cell 7).toNat ≤ 255 ∧
      256 ≤ (running 0xff 0 [(7, 1)]).acc.toNat + ((running 0xff 0 [(7, 1)]).cell 7).toNat ∧
      ((running 0x01 0 [(7, 1)]).cell 7).toNat ≤ (running 0x01 0 [(7, 1)]).acc.toNat ∧
      (running 0x00 0 [(7, 1)]).acc.toNat < ((running 0x00 0 [(7, 1)]).cell 7).toNat := by decide

/-- The boundary of the store: 24 is RAM, 23 is ROM; and a store at the last cell. -/
theorem witness_StStoresToRamOrFaults :
    (24 ≤ (24 : Addr).toNat ∧ Fetches (running 9 0 [(0, 0x78)]) (encode (.st 24))) ∧
      (24 ≤ (31 : Addr).toNat ∧ Fetches (running 9 31 [(31, 0x7f)]) (encode (.st 31))) ∧
      ((23 : Addr).toNat < 24 ∧ Fetches (running 9 0 [(0, 0x77)]) (encode (.st 23))) :=
  ⟨⟨by decide, rfl, by decide, rfl⟩, ⟨by decide, rfl, by decide, rfl⟩, by decide, rfl, by decide, rfl⟩

theorem witness_MemWriteWritesOneRamCellOrFails :
    24 ≤ (24 : Addr).toNat ∧ Memory.wf [(24, 5)] = true ∧ (23 : Addr).toNat < 24 ∧
      (∀ ad, Instr.ld 0 ≠ .st ad) ∧
      exec (.ld 0) (running 7 0 []) = .next (running 0 1 []) :=
  ⟨by decide, rfl, by decide, by decide, rfl⟩

theorem witness_CanonicalMemoriesAreEqualWhenReadsAgree :
    Memory.wf [(0, 1), (31, 2)] = true ∧ Memory.wf [(0, 1), (31, 2)] = true ∧
      ∀ a, a < 32 → Memory.read [(0, 1), (31, 2)] a = Memory.read [(0, 1), (31, 2)] a :=
  ⟨rfl, rfl, fun _ _ => rfl⟩

/-- A store to cell 24 that changes it. -/
theorem witness_OnlyStoreChangesMemory :
    step (running 9 0 [(0, 0x78)]) = .next { running 9 1 [(0, 0x78), (24, 9)] with steps := 8 } ∧
      State.cell { running 9 1 [(0, 0x78), (24, 9)] with steps := 8 } 24 ≠
        (running 9 0 [(0, 0x78)]).cell 24 := ⟨rfl, by decide⟩

/-- A state in which no ROM cell is listed, and a store to cell 24 by the word in RAM cell 25. -/
theorem witness_EveryStepKeepsTheRomImage :
    RomHolds (Vector.replicate 24 0) (running 9 25 [(25, 0x78)]) ∧
      step (running 9 25 [(25, 0x78)]) =
        .next { running 9 26 [(24, 9), (25, 0x78)] with steps := 8 } := by
  refine ⟨fun a h => ?_, rfl⟩
  interval_cases a <;> rfl

/-- A `ld`, which leaves the status and every cell; and a `st` to 24, which leaves every other. -/
theorem witness_ExecuteLeavesTheRestUnchanged :
    exec (.b 0) (running 7 1 []) = .next (running 7 0 []) ∧
      (∀ ad, Instr.b 0 ≠ .ld ad ∧ Instr.b 0 ≠ .sub ad ∧ Instr.b 0 ≠ .add ad) ∧
      (∀ ad, Instr.b 0 ≠ .illegal ad ∧ Instr.b 0 ≠ .halt ad ∧
        (Instr.b 0 = .st ad → 24 ≤ ad.toNat)) ∧
      exec (.st 24) (running 7 1 []) = .next (running 7 2 [(24, 7)]) ∧
      (∀ ad, Instr.st 24 = .st ad → 24 ≤ ad.toNat → 25 ≠ ad.toNat) :=
  ⟨rfl, by decide, by decide, rfl, by decide⟩

/-- A store from the last ROM cell into the first RAM cell, and from 30 into 31. -/
theorem witness_StoredWordIsFetchedNext :
    (Fetches (running 0xe0 23 [(23, 0x78)]) (encode (.st 24)) ∧ 24 ≤ (24 : Addr).toNat ∧
      (running 0xe0 23 [(23, 0x78)]).pc.toNat + 1 = (24 : Addr).toNat) ∧
    (Fetches (running 0xe0 30 [(30, 0x7f)]) (encode (.st 31)) ∧ 24 ≤ (31 : Addr).toNat ∧
      (running 0xe0 30 [(30, 0x7f)]).pc.toNat + 1 = (31 : Addr).toNat) :=
  ⟨⟨⟨rfl, by decide, rfl⟩, by decide, rfl⟩, ⟨rfl, by decide, rfl⟩, by decide, rfl⟩

theorem witness_BranchSetsThePc :
    Fetches (running 0 31 [(31, 0x80)]) (encode (.b 0)) ∧
      Fetches (running 0 0 [(0, 0x9f)]) (encode (.b 31)) :=
  ⟨⟨rfl, by decide, rfl⟩, rfl, by decide, rfl⟩

/-- The boundary of the condition: 0x80 is negative, 0x7f is not; both at the last cell. -/
theorem witness_BnegBranchesWhenNegative :
    ((running 0x80 31 [(31, 0xa5)]).acc.getLsbD 7 = true ∧
      Fetches (running 0x80 31 [(31, 0xa5)]) (encode (.bneg 5))) ∧
    ((running 0x7f 31 [(31, 0xa5)]).acc.getLsbD 7 = false ∧
      Fetches (running 0x7f 31 [(31, 0xa5)]) (encode (.bneg 5))) :=
  ⟨⟨rfl, rfl, by decide, rfl⟩, rfl, rfl, by decide, rfl⟩

theorem witness_HaltEndsTheRun : Fetches (running 1 31 [(31, 0xff)]) (encode (.halt 31)) :=
  ⟨rfl, by decide, rfl⟩

theorem witness_IllegalOpcodeFaults : Fetches (running 1 31 [(31, 0xdf)]) (encode (.illegal 31)) :=
  ⟨rfl, by decide, rfl⟩

theorem witness_AddressBitsOfHaltAndIllegalAreIgnored :
    (opcode 0xc0 = opcode 0xdf ∧ 6 ≤ (opcode 0xc0).toNat) ∧
      (opcode 0xe0 = opcode 0xff ∧ 6 ≤ (opcode 0xe0).toNat) := by decide

/-- The words on both sides of the illegal range. -/
theorem witness_IllegalWordsAreExactlyC0ToDF :
    Fetches (running 1 0 [(0, 0xc0)]) 0xc0 ∧ Fetches (running 1 0 [(0, 0xdf)]) 0xdf ∧
      Fetches (running 1 0 [(0, 0xbf)]) 0xbf ∧ Fetches (running 1 0 [(0, 0xe0)]) 0xe0 :=
  ⟨⟨rfl, by decide, rfl⟩, ⟨rfl, by decide, rfl⟩, ⟨rfl, by decide, rfl⟩, rfl, by decide, rfl⟩

/-- A store that faults, and a fault it raises. -/
theorem witness_IllegalWriteCauseAndState :
    Fetches (running 1 0 [(0, 0x77)]) 0x77 ∧
      step (running 1 0 [(0, 0x77)]) =
        .next { running 1 0 [(0, 0x77)] with status := .faulted .illegalWrite, steps := 8 } :=
  ⟨⟨rfl, by decide, rfl⟩, rfl⟩

/-- An untaken `bneg` at the last cell, and the fault it raises. -/
theorem witness_RangeFaultCauseAndState :
    Fetches (running 1 31 [(31, 0xa0)]) 0xa0 ∧
      step (running 1 31 [(31, 0xa0)]) =
        .next { running 1 32 [(31, 0xa0)] with
          status := .faulted .programCounterOutOfRange, steps := 8 } :=
  ⟨⟨rfl, by decide, rfl⟩, rfl⟩

/-- A cycle that goes on and one that does not. -/
theorem witness_OnlyTheListedCasesEndARun :
    (Fetches (running 1 30 [(30, 0x46)]) 0x46 ∧ goesOn (running 1 30 [(30, 0x46)]) 0x46 = true) ∧
      (Fetches (running 1 31 [(31, 0x46)]) 0x46 ∧
        goesOn (running 1 31 [(31, 0x46)]) 0x46 = false) :=
  ⟨⟨⟨rfl, by decide, rfl⟩, rfl⟩, ⟨rfl, by decide, rfl⟩, rfl⟩

theorem witness_StatusCodesTellTheStatusesApart :
    statusCode (.faulted .illegalWrite) = statusCode (.faulted .illegalWrite) := rfl

theorem witness_EveryCycleHasItsTrace :
    Fetches (running 1 31 [(31, 0xff)]) 0xff ∧ (running 1 31 []).haltRun.status ≠ .running :=
  ⟨⟨rfl, by decide, rfl⟩, by decide⟩

/-- A `Running` state of a run, a faulted one, and the steps they take. -/
theorem witness_EveryStepKeepsTheInvariant :
    (Safety.Inv (running 0xff 31 [(6, 9), (31, 0x46)]) ∧
      step (running 0xff 31 [(6, 9), (31, 0x46)]) =
        .next { running 0x08 32 [(6, 9), (31, 0x46)] with
          status := .faulted .programCounterOutOfRange, steps := 8 }) ∧
    (Safety.Inv { running 1 4 [(4, 0x77)] with status := .faulted .illegalWrite } ∧
      step { running 1 4 [(4, 0x77)] with status := .faulted .illegalWrite } =
        .next { running 1 4 [(4, 0x77)] with status := .faulted .illegalWrite }) := by
  refine ⟨⟨?_, rfl⟩, ?_, rfl⟩ <;> constructor <;> decide

/-- A `ld` that changes the accumulator. -/
theorem witness_OnlyLoadAndArithmeticChangeTheAccumulator :
    step (running 0 3 [(3, 0x03)]) = .next { running 3 4 [(3, 0x03)] with steps := 8 } ∧
      State.acc { running 3 4 [(3, 0x03)] with steps := 8 } ≠ (running 0 3 [(3, 0x03)]).acc :=
  ⟨rfl, by decide⟩

/-- A taken `bneg` and another negative accumulator; and a `halt`. -/
theorem witness_AccumulatorIsReadOnlyAsListed :
    ((0xff#8).getLsbD 7 = (running 0x80 2 []).acc.getLsbD 7 ∧
      exec (.bneg 5) (running 0x80 2 []) = .next (running 0x80 5 [])) ∧
      exec (.b 5) (running 0x80 2 []) = .next (running 0x80 5 []) ∧
      exec (.halt 5) (running 0x80 2 []) = .next (running 0x80 2 []).haltRun ∧
      exec (.illegal 5) (running 0x80 2 []) =
        .next ((running 0x80 2 []).raise .illegalInstruction) := ⟨⟨rfl, rfl⟩, rfl, rfl, rfl⟩

theorem witness_StepCounterInfluencesNothing :
    runFor 2 State.reset = .next { State.reset with pc := 2, steps := 2 } := rfl

/-- The image that is a single `halt`. -/
def haltImage : Config.RomImage := (Vector.replicate 24 0).set 0 0xe0

/-- Its end (S2 of section 1). -/
def haltEnd : State := { (State.resetWith haltImage).haltRun with steps := 1 }

theorem witness_EndOfRunIsUniqueAndCountsCycles : EndsAt (State.resetWith haltImage) 1 haltEnd :=
  ⟨rfl, by decide, fun k hk => ⟨State.resetWith haltImage, by
    obtain rfl : k = 0 := by omega
    rfl, rfl⟩⟩

theorem witness_RunOutcomeExistsExactlyAtTheEnd :
    haltEnd.runOutcome =
      some { status := .haltedNormally, steps := 1, acc := 0, ram := List.replicate 8 0 } := by
  decide

/-- Both sides of the boundary: before the end of the run the fuel is exhausted, from it on the report
is `ended`. -/
theorem witness_ReportIsEndedExactlyFromTheEndOfTheRunOn :
    report 0 (State.resetWith haltImage) = .fuelExhausted ∧
      report 1 (State.resetWith haltImage) =
        .ended { status := .haltedNormally, steps := 1, acc := 0, ram := List.replicate 8 0 } ∧
      1 ≤ 1 ∧ EndsAt (State.resetWith haltImage) 1 haltEnd :=
  ⟨rfl, rfl, le_refl 1, witness_EndOfRunIsUniqueAndCountsCycles⟩

theorem witness_PlacedWordIsTheNextToRun : (255 : Nat) < 256 := by decide

end Sys2Proof.Tests
end

section
/-! PROOFS of the statements about spec/10_state.md. First the facts they share, in the order of the
model's definitions: the decoder, the execute part, the cycle, runs, reset. `Executes` is the
execute part as a relation and `step_cases` says once what a step can do; every statement over a step
or a run is derived from these two. -/

namespace Sys2Proof

/-! ### The decoder -/

/-- The opcode of a word, read off the instruction it decodes to. -/
theorem opcode_of_decode {w : Byte} {i : Instr} (h : decode w = i) : opcode w = i.opcodeField := by
  rw [← (decode_fields w).1, h]

/-- The address field of a word, read off the instruction it decodes to. -/
theorem address_of_decode {w : Byte} {i : Instr} (h : decode w = i) :
    address w = i.addressField := by
  rw [← (decode_fields w).2, h]

end Sys2Proof

namespace Sys2Proof.Machine

/-! ### The execute part -/

theorem exec_st (ad : Addr) (s : State) :
    exec (.st ad) s =
      if 24 ≤ ad.toNat then .next (s.setMem (s.mem.write ad.toNat s.acc)).advance
      else .next (s.raise .illegalWrite) :=
  execSt_eq ad s

theorem exec_bneg (ad : Addr) (s : State) :
    exec (.bneg ad) s =
      if isNegative s.acc then .next (s.setPc (branchTarget ad)) else .next s.advance := rfl

/-- The execute part as a relation: one constructor per way through an arm of `exec`. -/
inductive Executes (s : State) : Instr → State → Prop
  | ld (ad : Addr) : Executes s (.ld ad) (s.setAcc (s.operand ad)).advance
  | sub (ad : Addr) : Executes s (.sub ad) (s.setAcc (wrappingSub s.acc (s.operand ad))).advance
  | add (ad : Addr) : Executes s (.add ad) (s.setAcc (wrappingAdd s.acc (s.operand ad))).advance
  | stRam (ad : Addr) (ram : 24 ≤ ad.toNat) :
      Executes s (.st ad) (s.setMem (s.mem.write ad.toNat s.acc)).advance
  | stRom (ad : Addr) (rom : ad.toNat < 24) : Executes s (.st ad) (s.raise .illegalWrite)
  | b (ad : Addr) : Executes s (.b ad) (s.setPc (branchTarget ad))
  | bnegTaken (ad : Addr) (neg : isNegative s.acc = true) :
      Executes s (.bneg ad) (s.setPc (branchTarget ad))
  | bnegUntaken (ad : Addr) (nonneg : isNegative s.acc = false) : Executes s (.bneg ad) s.advance
  | illegal (ignored : Addr) : Executes s (.illegal ignored) (s.raise .illegalInstruction)
  | halt (ignored : Addr) : Executes s (.halt ignored) s.haltRun

/-- The execute part always answers a next state. -/
theorem exists_executes (i : Instr) (s : State) : ∃ t, Executes s i t := by
  cases i with
  | ld ad => exact ⟨_, .ld ad⟩
  | sub ad => exact ⟨_, .sub ad⟩
  | add ad => exact ⟨_, .add ad⟩
  | st ad =>
    by_cases h : 24 ≤ ad.toNat
    · exact ⟨_, .stRam ad h⟩
    · exact ⟨_, .stRom ad (by omega)⟩
  | b ad => exact ⟨_, .b ad⟩
  | bneg ad =>
    cases h : isNegative s.acc with
    | true => exact ⟨_, .bnegTaken ad h⟩
    | false => exact ⟨_, .bnegUntaken ad h⟩
  | illegal ad => exact ⟨_, .illegal ad⟩
  | halt ad => exact ⟨_, .halt ad⟩

section
variable {i : Instr} {s t : State}

theorem Executes.exec_eq (h : Executes s i t) : exec i s = .next t := by
  cases h with
  | stRam ad ram => rw [exec_st, if_pos ram]
  | stRom ad rom => rw [exec_st, if_neg (by omega)]
  | bnegTaken ad neg => simp [exec_bneg, neg]
  | bnegUntaken ad nonneg => simp [exec_bneg, nonneg]
  | _ => rfl

/-- `Executes` is exactly what `exec` answers. -/
theorem exec_eq_next_iff : exec i s = .next t ↔ Executes s i t := by
  refine ⟨fun h => ?_, Executes.exec_eq⟩
  obtain ⟨u, hu⟩ := exists_executes i s
  obtain rfl : u = t := by simpa [hu.exec_eq] using h
  exact hu

/-- The execute part does not count. -/
theorem Executes.steps_eq (h : Executes s i t) : t.steps = s.steps := by
  cases h <;> rfl

/-- Who writes `A`. -/
theorem Executes.acc_eq_or (h : Executes s i t) :
    t.acc = s.acc ∨ ∃ ad, i = .ld ad ∨ i = .sub ad ∨ i = .add ad := by
  cases h with
  | ld ad => exact .inr ⟨ad, .inl rfl⟩
  | sub ad => exact .inr ⟨ad, .inr (.inl rfl)⟩
  | add ad => exact .inr ⟨ad, .inr (.inr rfl)⟩
  | _ => exact .inl rfl

/-- Who writes the status, and that such an instruction changes nothing else. -/
theorem Executes.status_eq_or (h : Executes s i t) :
    t.status = s.status ∨
    (∃ ad, i = .halt ad ∧ t = s.haltRun) ∨
    (∃ ad, i = .illegal ad ∧ t = s.raise .illegalInstruction) ∨
    (∃ ad, i = .st ad ∧ ad.toNat < 24 ∧ t = s.raise .illegalWrite) := by
  cases h with
  | halt ad => exact .inr (.inl ⟨ad, rfl, rfl⟩)
  | illegal ad => exact .inr (.inr (.inl ⟨ad, rfl, rfl⟩))
  | stRom ad rom => exact .inr (.inr (.inr ⟨ad, rfl, rom, rfl⟩))
  | _ => exact .inl rfl

/-- Who writes a cell: only a `st` to it, at a RAM address, and the cell then holds `A`. -/
theorem Executes.cell_eq_or (h : Executes s i t) (x : Nat) :
    t.cell x = s.cell x ∨ ∃ ad, i = .st ad ∧ 24 ≤ ad.toNat ∧ x = ad.toNat ∧ t.cell x = s.acc := by
  cases h with
  | stRam ad ram =>
    by_cases hx : x = ad.toNat
    · exact .inr ⟨ad, rfl, ram, hx, by simp [State.cell, hx]⟩
    · exact .inl (Memory.read_write_of_ne _ _ hx)
  | _ => exact .inl rfl

/-- The execute part keeps the memory canonical. -/
theorem Executes.mem_wf (h : Executes s i t) (hmem : s.mem.wf = true) : t.mem.wf = true := by
  cases h with
  | stRam ad ram => exact Memory.wf_write s.acc hmem (addr_lt_memSize ad)
  | _ => exact hmem

/-- From a `pc` in range the execute part leads to 32 at most. -/
theorem Executes.pc_le (h : Executes s i t) (hpc : s.pc.toNat ≤ 31) : t.pc.toNat ≤ 32 := by
  have hadvance : (s.pc + 1).toNat ≤ 32 := by
    have := State.advance_pc_toNat hpc
    rw [State.advance_pc] at this
    omega
  have htarget (ad : Addr) : (branchTarget ad).toNat ≤ 32 := by
    rw [branchTarget_toNat]
    omega
  cases h with
  | b ad | bnegTaken ad => exact htarget ad
  | stRom | illegal | halt => exact Nat.le_succ_of_le hpc
  | _ => exact hadvance

end

/-! ### The parts of the cycle after execute -/

theorem State.rangeCheck_of_terminal {s : State} (h : s.status ≠ .running) : s.rangeCheck = s :=
  if_neg fun hc => h hc.1

theorem State.rangeCheck_of_pc_le {s : State} (h : s.pc.toNat ≤ 31) : s.rangeCheck = s :=
  if_neg fun hc => absurd hc.2 (by omega)

theorem State.rangeCheck_of_pc_gt {s : State} (hrun : s.status = .running) (h : 31 < s.pc.toNat) :
    s.rangeCheck = s.raise .programCounterOutOfRange :=
  if_pos ⟨hrun, h⟩

/-! ### A larger count -/

/-- The state with a count larger by `k`. -/
def State.addSteps (s : State) (k : Nat) : State := { s with steps := s.steps + k }

@[simp] theorem State.addSteps_status (s : State) (k : Nat) :
    (s.addSteps k).status = s.status := rfl

/-- The execute part neither reads nor writes the count. -/
theorem Executes.addSteps {i : Instr} {s t : State} (h : Executes s i t) (k : Nat) :
    Executes (s.addSteps k) i (t.addSteps k) := by
  cases h with
  | ld ad => exact .ld ad
  | sub ad => exact .sub ad
  | add ad => exact .add ad
  | stRam ad ram => exact .stRam ad ram
  | stRom ad rom => exact .stRom ad rom
  | b ad => exact .b ad
  | bnegTaken ad neg => exact .bnegTaken ad neg
  | bnegUntaken ad nonneg => exact .bnegUntaken ad nonneg
  | illegal ad => exact .illegal ad
  | halt ad => exact .halt ad

theorem State.rangeCheck_countStep_addSteps (s : State) (k : Nat) :
    (s.addSteps k).rangeCheck.countStep = s.rangeCheck.countStep.addSteps k := by
  simp [State.rangeCheck_eq, State.countStep, State.addSteps, Nat.add_right_comm]

/-! ### The run outcome -/

theorem State.runOutcome_of_running {s : State} (h : s.status = .running) :
    s.runOutcome = none :=
  if_pos (State.takesCycle_eq_true.2 h)

theorem State.runOutcome_of_terminal {s : State} (h : s.status ≠ .running) :
    s.runOutcome = some { status := s.status, steps := s.steps, acc := s.acc, ram := s.ram } :=
  if_neg fun hc => h (State.takesCycle_eq_true.1 hc)

theorem State.runOutcome_eq_none_iff {s : State} : s.runOutcome = none ↔ s.status = .running := by
  refine ⟨fun h => ?_, State.runOutcome_of_running⟩
  by_contra hterm
  rw [State.runOutcome_of_terminal hterm] at h
  cases h

/-- An outcome is only there at the end. -/
theorem State.terminal_of_runOutcome {s : State} {o : RunOutcome} (h : s.runOutcome = some o) :
    s.status ≠ .running := by
  intro hrun
  rw [State.runOutcome_of_running hrun] at h
  cases h

@[simp] theorem State.ram_length (s : State) : s.ram.length = 8 := by
  simp [State.ram, Config.ramSize]

theorem State.ram_getElem? (s : State) {k : Nat} (h : k < 8) :
    s.ram[k]? = some (s.cell (24 + k)) := by
  simp [State.ram, Config.ramBase, Config.ramSize, h]

/-! ### Reset -/

/-- What a cell holds right after reset: the image below 24, zero from 24 on. -/
theorem State.resetWith_cell (rom : Config.RomImage) (a : Nat) :
    (State.resetWith rom).cell a = if h : a < 24 then rom[a] else 0 := by
  simp [State.cell, Memory.read_writeList, Memory.read, Config.unlistedCell]

/-- Writing zeros into the empty memory lists nothing. -/
theorem Memory.writeList_nil_replicate_zero (n a : Nat) :
    Memory.writeList [] a (List.replicate n 0) = [] := by
  induction n generalizing a with
  | zero => rfl
  | succ n ih => exact ih (a + 1)

/-! ### The canonical form -/

/-- Below the address a canonical memory starts at, nothing is listed. -/
theorem Memory.read_of_lt_of_wfFrom {lo x : Nat} {m : Memory} (hm : Memory.wfFrom lo m = true)
    (hx : x < lo) : m.read x = Config.unlistedCell := by
  induction m generalizing lo with
  | nil => rfl
  | cons c m ih =>
    obtain ⟨a, v⟩ := c
    obtain ⟨hlo, -, -, htail⟩ := Memory.wfFrom_cons.1 hm
    rw [Memory.read_cons, if_neg (by omega)]
    exact ih htail (by omega)

/-- The first cell a canonical memory lists is the first that does not read as an unlisted one: of
two canonical memories that read alike, neither starts before the other. -/
theorem Memory.not_starts_before {lo a : Nat} {v : Byte} {m m' : Memory}
    (hm : Memory.wfFrom lo ((a, v) :: m) = true) (hm' : Memory.wfFrom (a + 1) m' = true)
    (hread : ∀ x, x < 32 → Memory.read ((a, v) :: m) x = m'.read x) : False := by
  obtain ⟨-, ha, hv, -⟩ := Memory.wfFrom_cons.1 hm
  have hsame := hread a ha
  rw [Memory.read_cons, if_pos rfl, Memory.read_of_lt_of_wfFrom hm' (Nat.lt_succ_self a)] at hsame
  exact hv hsame

theorem Memory.eq_of_wfFrom_of_read_eq {lo : Nat} {m m' : Memory}
    (hm : Memory.wfFrom lo m = true) (hm' : Memory.wfFrom lo m' = true)
    (hread : ∀ x, x < 32 → m.read x = m'.read x) : m = m' := by
  induction m generalizing lo m' with
  | nil =>
    cases m' with
    | nil => rfl
    | cons c' m' => exact (Memory.not_starts_before hm' rfl fun x hx => (hread x hx).symm).elim
  | cons c m ih =>
    obtain ⟨a, v⟩ := c
    cases m' with
    | nil => exact (Memory.not_starts_before hm rfl hread).elim
    | cons c' m' =>
      obtain ⟨b, u⟩ := c'
      obtain ⟨-, ha, hv, htail⟩ := Memory.wfFrom_cons.1 hm
      obtain ⟨-, hb, hu, htail'⟩ := Memory.wfFrom_cons.1 hm'
      rcases Nat.lt_trichotomy a b with hab | rfl | hba
      · exact (Memory.not_starts_before hm (Memory.wfFrom_cons.2 ⟨hab, hb, hu, htail'⟩) hread).elim
      · obtain rfl : v = u := by simpa [Memory.read_cons] using hread a ha
        rw [ih htail htail' fun x hx => ?_]
        by_cases hxa : x = a
        · rw [Memory.read_of_lt_of_wfFrom htail (by omega),
            Memory.read_of_lt_of_wfFrom htail' (by omega)]
        · simpa [Memory.read_cons, hxa] using hread x hx
      · exact (Memory.not_starts_before hm' (Memory.wfFrom_cons.2 ⟨hba, ha, hv, htail⟩)
          fun x hx => (hread x hx).symm).elim

end Sys2Proof.Machine

namespace Sys2Proof.Safety

open Sys2Proof.Machine

/-! ### One step -/

section
variable {s t u : State}

theorem step_of_terminal (h : s.status ≠ .running) : step s = .next s :=
  if_neg fun hc => h (State.takesCycle_eq_true.1 hc)

theorem step_of_pc_gt (hrun : s.status = .running) (hpc : 31 < s.pc.toNat) :
    step s = .refused (.addressOutOfRange s.pc.toNat) := by
  simp [step, State.takesCycle_eq_true.2 hrun, State.fetch_eq, Nat.not_le.2 hpc]

/-- A cycle that fetches `w` is the execute part of `w`'s instruction, then range check and count. -/
theorem step_of_fetches {w : Byte} (h : Fetches s w) (hexec : Executes s (decode w) u) :
    step s = .next u.rangeCheck.countStep := by
  obtain ⟨hrun, hpc, rfl⟩ := h
  simp [step, State.takesCycle_eq_true.2 hrun, State.fetch_eq, hpc, hexec.exec_eq, endCycle]

/-- What a step that answers a state can do, once: nothing in a terminal state, else one whole
cycle. -/
theorem step_cases (h : step s = .next t) :
    (s.status ≠ .running ∧ t = s) ∨
    ∃ w i u, Fetches s w ∧ decode w = i ∧ Executes s i u ∧ t = u.rangeCheck.countStep := by
  by_cases hrun : s.status = .running
  · by_cases hpc : s.pc.toNat ≤ 31
    · have hfetch : Fetches s (s.cell s.pc.toNat) := ⟨hrun, hpc, rfl⟩
      obtain ⟨u, hu⟩ := exists_executes (decode (s.cell s.pc.toNat)) s
      rw [step_of_fetches hfetch hu] at h
      cases h
      exact .inr ⟨_, _, u, hfetch, rfl, hu, rfl⟩
    · rw [step_of_pc_gt hrun (by omega)] at h
      cases h
  · rw [step_of_terminal hrun] at h
    cases h
    exact .inl ⟨hrun, rfl⟩

/-- A step is possible wherever `Running` implies that `pc` is in range. -/
theorem exists_step (h : s.status = .running → s.pc.toNat ≤ 31) : ∃ t, step s = .next t := by
  by_cases hrun : s.status = .running
  · obtain ⟨u, hu⟩ := exists_executes (decode (s.cell s.pc.toNat)) s
    exact ⟨_, step_of_fetches ⟨hrun, h hrun, rfl⟩ hu⟩
  · exact ⟨s, step_of_terminal hrun⟩

/-- A cycle counts once. -/
theorem step_steps (hrun : s.status = .running) (h : step s = .next t) :
    t.steps = s.steps + 1 := by
  obtain ⟨hterm, -⟩ | ⟨w, i, u, -, -, hexec, rfl⟩ := step_cases h
  · exact absurd hrun hterm
  · simp [hexec.steps_eq]

theorem step_addSteps (h : step s = .next t) (k : Nat) :
    step (s.addSteps k) = .next (t.addSteps k) := by
  obtain ⟨hterm, rfl⟩ | ⟨w, i, u, ⟨hrun, hpc, hw⟩, rfl, hexec, rfl⟩ := step_cases h
  · exact step_of_terminal hterm
  · rw [← State.rangeCheck_countStep_addSteps]
    exact step_of_fetches ⟨hrun, hpc, hw⟩ (hexec.addSteps k)

/-! ### Runs -/

theorem runFor_of_terminal (h : s.status ≠ .running) (n : Nat) : runFor n s = .next s := by
  induction n with
  | zero => rfl
  | succ n ih => rw [runFor_succ n (step_of_terminal h), ih]

/-- A run of `n + 1` steps that answers a state took a first step. -/
theorem exists_first_step {n : Nat} (h : runFor (n + 1) s = .next t) :
    ∃ u, step s = .next u ∧ runFor n u = .next t := by
  cases hs : step s with
  | next u => exact ⟨u, rfl, by rwa [runFor_succ n hs] at h⟩
  | fault r => cases r
  | refused r =>
    rw [runFor_succ_refused n hs] at h
    cases h

/-- Runs compose. -/
theorem runFor_add {m : Nat} (n : Nat) (h : runFor m s = .next u) :
    runFor (m + n) s = runFor n u := by
  induction m generalizing s with
  | zero =>
    cases h
    rw [Nat.zero_add]
  | succ m ih =>
    obtain ⟨v, hstep, hrest⟩ := exists_first_step h
    rw [Nat.succ_add, runFor_succ _ hstep, ih hrest]

/-- A property that every step keeps, and under which every state has a step, holds along every run
that starts with it; and no such run stops. -/
theorem exists_runFor_of_kept {P : State → Prop}
    (total : ∀ s, P s → ∃ t, step s = .next t)
    (kept : ∀ s t, P s → step s = .next t → P t) (hs : P s) (n : Nat) :
    ∃ t, runFor n s = .next t ∧ P t := by
  induction n generalizing s with
  | zero => exact ⟨s, rfl, hs⟩
  | succ n ih =>
    obtain ⟨u, hu⟩ := total s hs
    rw [runFor_succ n hu]
    exact ih (kept s u hs hu)

theorem runFor_addSteps {n : Nat} (h : runFor n s = .next t) (k : Nat) :
    runFor n (s.addSteps k) = .next (t.addSteps k) := by
  induction n generalizing s with
  | zero =>
    cases h
    rfl
  | succ n ih =>
    obtain ⟨u, hstep, hrest⟩ := exists_first_step h
    rw [runFor_succ n (step_addSteps hstep k), ih hrest]

/-! ### The end of a run -/

theorem endsAt_zero (h : s.status ≠ .running) : EndsAt s 0 s :=
  ⟨rfl, h, fun k hk => absurd hk (Nat.not_lt_zero k)⟩

/-- One more cycle in front of a run. -/
theorem EndsAt.cons {n : Nat} (h : EndsAt u n t) (hrun : s.status = .running)
    (hstep : step s = .next u) : EndsAt s (n + 1) t where
  reached := by rw [runFor_succ n hstep, h.reached]
  terminal := h.terminal
  first
    | 0, _ => ⟨s, rfl, hrun⟩
    | k + 1, hk => by
      rw [runFor_succ k hstep]
      exact h.first k (Nat.lt_of_succ_lt_succ hk)

/-- A run from a state that is not at its end begins with a cycle. -/
theorem EndsAt.uncons {n : Nat} (h : EndsAt s (n + 1) t) :
    s.status = .running ∧ ∃ u, step s = .next u ∧ EndsAt u n t := by
  obtain ⟨v, hv, hrun⟩ := h.first 0 (Nat.succ_pos n)
  cases hv
  obtain ⟨u, hstep, hrest⟩ := exists_first_step h.reached
  refine ⟨hrun, u, hstep, hrest, h.terminal, fun k hk => ?_⟩
  rw [← runFor_succ k hstep]
  exact h.first (k + 1) (Nat.succ_lt_succ hk)

/-- The count at the end is the count at the start and one for each cycle. -/
theorem EndsAt.steps_eq {n : Nat} (h : EndsAt s n t) : t.steps = s.steps + n := by
  induction n generalizing s with
  | zero =>
    obtain ⟨hreached, -, -⟩ := h
    cases hreached
    rfl
  | succ n ih =>
    obtain ⟨hrun, u, hstep, hrest⟩ := h.uncons
    calc t.steps = u.steps + n := ih hrest
      _ = s.steps + 1 + n := by rw [step_steps hrun hstep]
      _ = s.steps + (n + 1) := by omega

/-- No run ends before its end. -/
theorem EndsAt.le {n n' : Nat} {t' : State} (h : EndsAt s n t) (h' : EndsAt s n' t') : n ≤ n' := by
  by_contra hlt
  obtain ⟨u, hu, hrun⟩ := h.first n' (by omega)
  rw [h'.reached] at hu
  cases hu
  exact h'.terminal hrun

theorem EndsAt.unique {n n' : Nat} {t' : State} (h : EndsAt s n t) (h' : EndsAt s n' t') :
    n' = n ∧ t' = t := by
  obtain rfl : n' = n := Nat.le_antisymm (h'.le h) (h.le h')
  have := h'.reached
  rw [h.reached] at this
  cases this
  exact ⟨rfl, rfl⟩

/-- From its end on, a run stays there. -/
theorem EndsAt.runFor_of_le {n fuel : Nat} (h : EndsAt s n t) (hle : n ≤ fuel) :
    runFor fuel s = .next t := by
  obtain ⟨more, rfl⟩ := Nat.exists_eq_add_of_le hle
  rw [runFor_add more h.reached, runFor_of_terminal h.terminal]

/-- A run that answers a terminal state has passed its end there. -/
theorem exists_endsAt {fuel : Nat} (h : runFor fuel s = .next t) (hterm : t.status ≠ .running) :
    ∃ n, n ≤ fuel ∧ EndsAt s n t := by
  induction fuel generalizing s with
  | zero =>
    cases h
    exact ⟨0, le_refl 0, endsAt_zero hterm⟩
  | succ fuel ih =>
    by_cases hrun : s.status = .running
    · obtain ⟨u, hstep, hrest⟩ := exists_first_step h
      obtain ⟨n, hle, hend⟩ := ih hrest
      exact ⟨n + 1, Nat.succ_le_succ hle, hend.cons hrun hstep⟩
    · rw [runFor_of_terminal hrun] at h
      cases h
      exact ⟨0, Nat.zero_le _, endsAt_zero hterm⟩

/-! ### The bounded executor's report -/

/-- What a report says of a run that did not stop. -/
theorem report_of_runFor {fuel : Nat} (h : runFor fuel s = .next t) :
    report fuel s = t.runOutcome.elim .fuelExhausted .ended := by
  cases hout : t.runOutcome <;> simp [report, h, hout]

/-- Of a run that does not stop, the report is `ended` exactly from the end of the run on. -/
theorem report_eq_ended_iff {fuel : Nat} {o : RunOutcome} (h : runFor fuel s = .next t) :
    report fuel s = .ended o ↔
      ∃ n u, n ≤ fuel ∧ EndsAt s n u ∧ u.runOutcome = some o := by
  constructor
  · intro hended
    have ho : t.runOutcome = some o := by
      rw [report_of_runFor h] at hended
      cases hout : t.runOutcome with
      | none => simp [hout] at hended
      | some o' => simpa [hout] using hended
    obtain ⟨n, hle, hend⟩ := exists_endsAt h (State.terminal_of_runOutcome ho)
    exact ⟨n, t, hle, hend, ho⟩
  · rintro ⟨n, u, hle, hend, ho⟩
    rw [report_of_runFor (hend.runFor_of_le hle), ho]
    rfl

/-! ### The invariant -/

/-- What the invariant says of `pc`, status by status. -/
def PcFitsStatus (s : State) : Prop :=
  match s.status with
  | .running => s.pc.toNat ≤ 31
  | .haltedNormally => s.pc.toNat ≤ 31 ∧ opcode (s.cell s.pc.toNat) = 7
  | .faulted .illegalInstruction => s.pc.toNat ≤ 31 ∧ opcode (s.cell s.pc.toNat) = 6
  | .faulted .illegalWrite =>
    s.pc.toNat ≤ 31 ∧ opcode (s.cell s.pc.toNat) = 3 ∧ (address (s.cell s.pc.toNat)).toNat < 24
  | .faulted .programCounterOutOfRange => s.pc.toNat = 32

theorem inv_iff : Inv s ↔ s.mem.wf = true ∧ PcFitsStatus s := by
  constructor
  · intro h
    refine ⟨h.memory, ?_⟩
    unfold PcFitsStatus
    split
    · next hst => exact h.running_pc hst
    · next hst => exact h.halted_at hst
    · next hst => exact h.illegal_at hst
    · next hst => exact h.illegalWrite_at hst
    · next hst => exact h.rangeFault_pc hst
  · rintro ⟨hmem, hfits⟩
    refine ⟨hmem, ?_, ?_, ?_, ?_, ?_⟩ <;> intro hst <;> simpa only [PcFitsStatus, hst] using hfits

theorem inv_of_running (hmem : s.mem.wf = true) (hrun : s.status = .running)
    (hpc : s.pc.toNat ≤ 31) : Inv s :=
  inv_iff.2 ⟨hmem, by simpa only [PcFitsStatus, hrun] using hpc⟩

/-- The range check repairs the one thing a `Running` execute part can leave: `pc = 32`. -/
theorem pcFitsStatus_of_cycle_running (hrun : u.status = .running) (hpc : u.pc.toNat ≤ 32) :
    PcFitsStatus u.rangeCheck.countStep := by
  by_cases h : u.pc.toNat ≤ 31
  · rw [State.rangeCheck_of_pc_le h]
    simpa only [PcFitsStatus, State.countStep_status, State.countStep_pc, hrun] using h
  · rw [State.rangeCheck_of_pc_gt hrun (by omega)]
    change u.pc.toNat = 32
    omega

/-- A cycle leaves `pc` where the status it ends in says. -/
theorem pcFitsStatus_of_cycle {i : Instr} (hfetch : Fetches s (s.cell s.pc.toNat))
    (hdecode : decode (s.cell s.pc.toNat) = i) (hexec : Executes s i u) :
    PcFitsStatus u.rangeCheck.countStep := by
  have hpc := hfetch.inRange
  have hop := opcode_of_decode hdecode
  have had := address_of_decode hdecode
  obtain hstatus | ⟨ad, rfl, rfl⟩ | ⟨ad, rfl, rfl⟩ | ⟨ad, rfl, hrom, rfl⟩ := hexec.status_eq_or
  · exact pcFitsStatus_of_cycle_running (hstatus.trans hfetch.running) (hexec.pc_le hpc)
  · rw [State.rangeCheck_of_terminal (by simp)]
    exact ⟨hpc, hop⟩
  · rw [State.rangeCheck_of_terminal (by simp)]
    exact ⟨hpc, hop⟩
  · rw [State.rangeCheck_of_terminal (by simp)]
    exact ⟨hpc, hop, had ▸ hrom⟩

theorem inv_step (hinv : Inv s) (h : step s = .next t) : Inv t := by
  obtain ⟨-, rfl⟩ | ⟨w, i, u, ⟨hrun, hpc, rfl⟩, hdecode, hexec, rfl⟩ := step_cases h
  · exact hinv
  · refine inv_iff.2 ⟨?_, pcFitsStatus_of_cycle ⟨hrun, hpc, rfl⟩ hdecode hexec⟩
    simpa using hexec.mem_wf hinv.memory

theorem inv_resetWith (rom : Config.RomImage) : Inv (State.resetWith rom) :=
  inv_of_running (State.resetWith_mem_wf rom) rfl (Nat.zero_le 31)

/-- No run from a state that meets the invariant stops, and all its states meet it. -/
theorem exists_runFor_of_inv (h : Inv s) (n : Nat) : ∃ t, runFor n s = .next t ∧ Inv t :=
  exists_runFor_of_kept (fun _ hi => exists_step hi.running_pc) (fun _ _ => inv_step) h n

/-! ### Cells and the accumulator over a step -/

/-- A step changes a cell only by a `st` to it, at a RAM address. -/
theorem step_cell_eq_or (h : step s = .next t) (x : Nat) :
    t.cell x = s.cell x ∨
    s.status = .running ∧ t.cell x = s.acc ∧
      ∃ ad, decode (s.cell s.pc.toNat) = .st ad ∧ 24 ≤ ad.toNat ∧ x = ad.toNat := by
  obtain ⟨-, rfl⟩ | ⟨w, i, u, ⟨hrun, hpc, rfl⟩, hdecode, hexec, rfl⟩ := step_cases h
  · exact .inl rfl
  · have hcell : u.rangeCheck.countStep.cell x = u.cell x := by simp [State.cell]
    rw [hcell]
    exact (hexec.cell_eq_or x).imp_right fun ⟨ad, hi, hram, hx, hstored⟩ =>
      ⟨hrun, hstored, ad, hdecode.trans hi, hram, hx⟩

theorem romHolds_step {rom : Config.RomImage} (hrom : RomHolds rom s) (h : step s = .next t) :
    RomHolds rom t := by
  intro a ha
  obtain hsame | ⟨-, -, ad, -, hram, rfl⟩ := step_cell_eq_or h a
  · rw [hsame, hrom a ha]
  · omega

theorem romHolds_resetWith (rom : Config.RomImage) : RomHolds rom (State.resetWith rom) := by
  intro a ha
  rw [State.resetWith_cell, dif_pos ha]

end

/-! ### The statements about every step -/

/-- Settles O38: what a step can do (`step_cases`), then what the status a cycle ends in says of
`pc`. -/
theorem everyStepKeepsTheInvariant : Obligations.EveryStepKeepsTheInvariant :=
  fun _ _ => inv_step

/-- Settles O50: a cell below 24 is not one that a step can change. -/
theorem everyStepKeepsTheRomImage : Obligations.EveryStepKeepsTheRomImage :=
  fun _ _ _ => romHolds_step

/-- Settles O23: the inversion of a step for one cell. -/
theorem onlyStoreChangesMemory : Obligations.OnlyStoreChangesMemory := by
  intro s t x h hne
  obtain hsame | ⟨hrun, hstored, ad, hdecode, hram, rfl⟩ := step_cell_eq_or h x
  · exact absurd hsame hne
  · exact ⟨hrun, hram, Nat.le_of_lt_succ ad.isLt, hstored, ad, hdecode, rfl⟩

/-- Settles O40: who writes `A` in the execute part; the rest of the cycle leaves it. -/
theorem onlyLoadAndArithmeticChangeTheAccumulator :
    Obligations.OnlyLoadAndArithmeticChangeTheAccumulator := by
  intro s t h hne
  obtain ⟨-, rfl⟩ | ⟨w, i, u, ⟨hrun, hpc, rfl⟩, hdecode, hexec, rfl⟩ := step_cases h
  · exact absurd rfl hne
  · refine ⟨hrun, ?_⟩
    rw [opcode_of_decode hdecode]
    obtain hsame | ⟨ad, rfl | rfl | rfl⟩ := hexec.acc_eq_or
    · exact absurd (by simpa using hsame) hne
    all_goals simp [Instr.opcodeField]

/-! ### The statements about the execute part -/

/-- Settles O25: the four "who writes" lemmas of `Executes`. -/
theorem executeLeavesTheRestUnchanged : Obligations.ExecuteLeavesTheRestUnchanged := by
  intro i s t h
  have hexec := exec_eq_next_iff.1 h
  refine ⟨hexec.steps_eq, fun hi => ?_, fun hi => ?_, fun x hx => ?_⟩
  · obtain hsame | ⟨ad, hwriter⟩ := hexec.acc_eq_or
    · exact hsame
    · obtain ⟨hld, hsub, hadd⟩ := hi ad
      exact absurd hwriter (by simp [hld, hsub, hadd])
  · obtain hsame | ⟨ad, hhalt, -⟩ | ⟨ad, hillegal, -⟩ | ⟨ad, hst, hrom, -⟩ := hexec.status_eq_or
    · exact hsame
    all_goals obtain ⟨hnotIllegal, hnotHalt, hstRam⟩ := hi ad
    · exact absurd hhalt hnotHalt
    · exact absurd hillegal hnotIllegal
    · exact absurd (hstRam hst) (by omega)
  · obtain hsame | ⟨ad, hst, hram, hxad, -⟩ := hexec.cell_eq_or x
    · exact hsame
    · exact absurd hxad (hx ad hst hram)

/-- Settles O41, instruction by instruction: only `bneg` looks at `A`, and only at bit 7. -/
theorem accumulatorIsReadOnlyAsListed : Obligations.AccumulatorIsReadOnlyAsListed := by
  intro s v ad
  refine ⟨rfl, fun i t hi h => ?_⟩
  obtain rfl | rfl | rfl | ⟨rfl, hbit⟩ := hi
  · cases h
    rfl
  · cases h
    rfl
  · cases h
    rfl
  · rw [exec_bneg] at h ⊢
    have hneg : isNegative v = isNegative s.acc := hbit
    simp only [hneg]
    split_ifs at h ⊢ <;> cases h <;> rfl

/-! ### The statements about runs -/

/-- Settles O24: `Inv` keeps the run from stopping, and `RomHolds` is kept beside it. -/
theorem romHoldsTheImageThroughEveryRun : Obligations.RomHoldsTheImageThroughEveryRun := by
  intro rom n
  obtain ⟨t, hrun, -, hrom⟩ := exists_runFor_of_kept (P := fun s => Inv s ∧ RomHolds rom s)
    (fun _ hs => exists_step hs.1.running_pc)
    (fun _ _ hs h => ⟨inv_step hs.1 h, romHolds_step hs.2 h⟩)
    ⟨inv_resetWith rom, romHolds_resetWith rom⟩ n
  exact ⟨t, hrun, hrom⟩

/-- Settles O42, by induction on the number of steps. -/
theorem stepCounterInfluencesNothing : Obligations.StepCounterInfluencesNothing :=
  fun _ k _ _ h => runFor_addSteps h k

/-- Settles O46: the count by induction on the number of cycles, uniqueness because an end is a first
terminal state. -/
theorem endOfRunIsUniqueAndCountsCycles : Obligations.EndOfRunIsUniqueAndCountsCycles := by
  intro rom n t h
  have hsteps : t.steps = n := by simpa using h.steps_eq
  refine ⟨hsteps, ?_, fun _ _ => h.unique⟩
  rw [State.runOutcome_of_terminal h.terminal, hsteps]

/-- Settles O48: a run from reset never stops (`exists_runFor_of_inv`), and of such a run the report
is given by its end. -/
theorem reportIsEndedExactlyFromTheEndOfTheRunOn :
    Obligations.ReportIsEndedExactlyFromTheEndOfTheRunOn := by
  intro rom fuel
  have hruns (n : Nat) : ∃ t, runFor n (State.resetWith rom) = .next t :=
    (exists_runFor_of_inv (inv_resetWith rom) n).imp fun _ ht => ht.1
  obtain ⟨t, ht⟩ := hruns fuel
  refine ⟨?_, fun o => report_eq_ended_iff ht, fun o more h => ?_⟩
  · rw [report_of_runFor ht]
    cases t.runOutcome <;> simp
  · obtain ⟨n, u, hle, hend, ho⟩ := (report_eq_ended_iff ht).1 h
    obtain ⟨t', ht'⟩ := hruns (fuel + more)
    exact (report_eq_ended_iff ht').2 ⟨n, u, by omega, hend, ho⟩

/-- Settles O47: the outcome is `none` while `Running` and the four parts otherwise. -/
theorem runOutcomeExistsExactlyAtTheEnd : Obligations.RunOutcomeExistsExactlyAtTheEnd := by
  intro s
  refine ⟨State.runOutcome_eq_none_iff, fun o h => ?_⟩
  rw [State.runOutcome_of_terminal (State.terminal_of_runOutcome h)] at h
  cases h
  exact ⟨rfl, rfl, rfl, s.ram_length, fun _ => s.ram_getElem?⟩

/-! ### The statements about the memory's form and reset -/

/-- Settles O22, by induction on one of the two lists: their first cells are the same. -/
theorem canonicalMemoriesAreEqualWhenReadsAgree :
    Obligations.CanonicalMemoriesAreEqualWhenReadsAgree :=
  fun _ _ => Memory.eq_of_wfFrom_of_read_eq

/-- Settles O43: `State.resetWith` cell by cell. -/
theorem resetGivesTheResetValues : Obligations.ResetGivesTheResetValues := by
  intro rom before
  refine ⟨State.resetWith rom, rfl, rfl, rfl, rfl, rfl, romHolds_resetWith rom, fun a ha => ?_,
    State.resetWith_mem_wf rom⟩
  rw [State.resetWith_cell, dif_neg (by omega)]

/-- Settles O39: a `Running` state at `pc = 0` with a canonical memory. -/
theorem resetMeetsTheInvariant : Obligations.ResetMeetsTheInvariant :=
  ⟨inv_of_running State.reset_mem_wf rfl (Nat.zero_le 31), inv_resetWith⟩

/-- Settles O44: an image of zeros lists no cell. -/
theorem resetWithoutImageIsTheEmptyProgram : Obligations.ResetWithoutImageIsTheEmptyProgram := by
  refine ⟨by decide, ?_⟩
  simp only [State.reset, State.resetWith, Vector.toList_replicate,
    Memory.writeList_nil_replicate_zero]

end Sys2Proof.Safety
end

section
/-! PROOFS of the statements about spec/20_memory.md. First the facts they need: the decoder on an
encoded word, the address decoder, who writes the memory, and the cycle of a `st` to RAM. -/

namespace Sys2Proof

/-- Decoding undoes encoding: the opcode field picks the constructor back, the address field its
argument. -/
@[simp] theorem decode_encode (i : Instr) : decode (encode i) = i := by
  cases i <;> simp [encode, decode, Instr.opcodeField, Instr.addressField]

end Sys2Proof

namespace Sys2Proof.Machine

theorem isRam_iff_le {a : Addr} : isRam a = true ↔ 24 ≤ a.toNat :=
  decide_eq_true_iff

/-- Below 32, an address reaches 24 exactly when its bits of weight 16 and 8 are both set. -/
theorem le_toNat_iff_bits {a : Addr} :
    24 ≤ a.toNat ↔ a.getLsbD 4 = true ∧ a.getLsbD 3 = true := by
  have := a.isLt
  simp only [BitVec.getLsbD, Nat.testBit_eq_decide_div_mod_eq, decide_eq_true_eq]
  omega

section
variable {i : Instr} {s t : State}

/-- Who writes the memory: only a `st` at a RAM address. -/
theorem Executes.mem_eq_or (h : Executes s i t) :
    t.mem = s.mem ∨
    ∃ ad, i = .st ad ∧ 24 ≤ ad.toNat ∧ t.mem = s.mem.write ad.toNat s.acc := by
  cases h with
  | stRam ad ram => exact .inr ⟨ad, rfl, ram, rfl⟩
  | _ => exact .inl rfl

end

end Sys2Proof.Machine

namespace Sys2Proof.Safety

open Sys2Proof.Machine

/-- The cycle of a `st` to RAM: the execute part stores and advances, then range check and count. -/
theorem step_of_fetches_st {s : State} {ad : Addr} (h : Fetches s (encode (.st ad)))
    (ram : 24 ≤ ad.toNat) :
    step s =
      .next (s.setMem (s.mem.write ad.toNat s.acc)).advance.rangeCheck.countStep :=
  step_of_fetches h (by rw [decode_encode]; exact .stRam ad ram)

/-- Settles O14: a terminal state steps to itself, a cycle with `pc` in range always completes, and
the one case left is the refused fetch. -/
theorem stepStopsOnlyOnFetchAbove31 : Obligations.StepStopsOnlyOnFetchAbove31 := by
  intro s
  refine ⟨fun ⟨hrun, hpc⟩ => step_of_pc_gt hrun hpc, fun h => exists_step fun hrun => ?_⟩
  exact Nat.not_lt.1 fun hpc => h ⟨hrun, hpc⟩

/-- Settles O20: the two outcomes of a store (`Memory.store_eq`), then those of `st`, then who writes
the memory. -/
theorem memWriteWritesOneRamCellOrFails : Obligations.MemWriteWritesOneRamCellOrFails := by
  refine ⟨fun m ad v ram => ?_, fun m ad v rom => ?_, fun s ad rom => ?_, fun i s t hi h => ?_⟩
  · exact ⟨m.write ad.toNat v, by rw [Memory.store_eq, if_pos ram], Memory.read_write_same m _ v,
      fun x => Memory.read_write_of_ne m v, fun hm => Memory.wf_write v hm (addr_lt_memSize ad)⟩
  · rw [Memory.store_eq, if_neg (Nat.not_le.2 rom)]
  · exact (Executes.stRom ad rom).exec_eq
  · obtain hsame | ⟨ad, hst, -⟩ := (exec_eq_next_iff.1 h).mem_eq_or
    · exact hsame
    · exact absurd hst (hi ad)

/-- Settles O26: the store leaves `pc` at the cell it wrote, a cell in range, so the range check
passes and the next fetch reads what `A` held. -/
theorem storedWordIsFetchedNext : Obligations.StoredWordIsFetchedNext := by
  intro s ad h ram hnext
  refine ⟨_, step_of_fetches_st h ram, ?_⟩
  have hpc : (s.setMem (s.mem.write ad.toNat s.acc)).advance.pc.toNat = ad.toNat :=
    (State.advance_pc_toNat h.inRange).trans hnext
  have hle : ad.toNat ≤ 31 := Nat.le_of_lt_succ ad.isLt
  rw [State.rangeCheck_of_pc_le (hpc.trans_le hle)]
  refine ⟨h.running, hpc.trans_le hle, ?_⟩
  rw [State.countStep_pc, hpc]
  exact Memory.read_write_same s.mem ad.toNat s.acc

/-- Settles O21: the decoder's bound, and the bound read off the two top bits. -/
theorem ramDecoderTestsBitsFourAndThree : Obligations.RamDecoderTestsBitsFourAndThree :=
  fun _ => ⟨isRam_iff_le, isRam_iff_le.trans le_toNat_iff_bits⟩

end Sys2Proof.Safety
end

section
/-! PROOFS of the statements about spec/30_encoding.md. First the facts they need: the word and its
two fields, decoding and encoding as inverses, the rendering, and the one cell of a table word. -/

namespace Sys2Proof

/-! ### The word and its fields -/

/-- A word is its two fields joined. -/
@[simp] theorem joinFields_opcode_address (w : Byte) : joinFields (opcode w) (address w) = w := by
  apply BitVec.eq_of_toNat_eq
  rw [joinFields_toNat, opcode_toNat, address_toNat]
  omega

/-- The words of an opcode are a range of 32. -/
theorem opcode_eq_iff_range {w : Byte} {op : Opcode} :
    opcode w = op ↔ op.toNat * 32 ≤ w.toNat ∧ w.toNat ≤ op.toNat * 32 + 31 := by
  rw [← BitVec.toNat_inj, opcode_toNat]
  omega

theorem fieldsInRange_iff {op ad : Nat} : fieldsInRange op ad = true ↔ op ≤ 7 ∧ ad ≤ 31 := by
  simp [fieldsInRange]

/-- What `encode` on numbers does, once: the joined word on R83's range, the refusal outside. -/
theorem encodeFields_eq (op ad : Nat) :
    encodeFields op ad =
      if op ≤ 7 ∧ ad ≤ 31 then some (joinFields (BitVec.ofNat 3 op) (BitVec.ofNat 5 ad))
      else none := by
  simp only [encodeFields, fieldsInRange_iff]

/-- On two fields, `encode` on numbers is their join. -/
theorem encodeFields_toNat (op : Opcode) (ad : Addr) :
    encodeFields op.toNat ad.toNat = some (joinFields op ad) := by
  have := op.isLt
  have := ad.isLt
  rw [encodeFields_eq, if_pos (by omega), BitVec.ofNat_toNat, BitVec.ofNat_toNat,
    BitVec.setWidth_eq, BitVec.setWidth_eq]

/-! ### Decoding and encoding -/

theorem Instr.wellFormed_eq_true (i : Instr) : i.wellFormed = true := by
  cases i
  all_goals exact fieldsInRange_addr (by decide) _

/-- Encoding undoes decoding: the decoder keeps both fields of the word. -/
@[simp] theorem encode_decode (w : Byte) : encode (decode w) = w := by
  obtain ⟨hop, had⟩ := decode_fields w
  rw [encode, hop, had, joinFields_opcode_address]

theorem decode_eq_iff_eq_encode {w : Byte} {i : Instr} : decode w = i ↔ w = encode i :=
  ⟨fun h => by rw [← h, encode_decode], fun h => by rw [h, decode_encode]⟩

/-- The two fields of a word determine what it decodes to. -/
theorem decode_eq_of_fields {w : Byte} {i : Instr} (hop : opcode w = i.opcodeField)
    (had : address w = i.addressField) : decode w = i := by
  rw [decode_eq_iff_eq_encode, encode, ← hop, ← had, joinFields_opcode_address]

theorem decode_eq_of_range {w : Byte} (i : Instr) (had : address w = i.addressField)
    (h : i.opcodeField.toNat * 32 ≤ w.toNat ∧ w.toNat ≤ i.opcodeField.toNat * 32 + 31) :
    decode w = i :=
  decode_eq_of_fields (opcode_eq_iff_range.2 h) had

/-! ### The rendering -/

/-- The digit function reads the table of the sixteen digits. -/
theorem hexDigit_eq_getD {n : Nat} (h : n < 16) :
    hexDigit n = "0123456789abcdef".toList.getD n ' ' := by
  revert n
  decide

/-- A digit tells its number: its place in the table of digits. -/
theorem hexDigit_inj {m n : Nat} (hm : m < 16) (hn : n < 16) (h : hexDigit m = hexDigit n) :
    m = n := by
  have hplace : ∀ k < 16, "0123456789abcdef".toList.idxOf (hexDigit k) = k := by decide
  rw [← hplace m hm, h, hplace n hn]

theorem hex2_inj {a b : Addr} (h : hex2 a = hex2 b) : a = b := by
  have := a.isLt
  have := b.isLt
  have hdigits := String.ofList_injective h
  simp only [List.cons.injEq, and_true] at hdigits
  obtain ⟨hhigh, hlow⟩ := hdigits
  have := hexDigit_inj (by omega) (by omega) hhigh
  have := hexDigit_inj (by omega) (by omega) hlow
  apply BitVec.eq_of_toNat_eq
  omega

/-- The mnemonic function reads the table of the eight mnemonics. -/
theorem mnemonic_eq_getD (op : Opcode) :
    mnemonic op = ["ld", "sub", "add", "st", "b", "bneg", "??? ", "halt"].getD op.toNat "" := by
  rcases opcode_cases op with rfl | rfl | rfl | rfl | rfl | rfl | rfl | rfl <;> rfl

/-- What stands after the mnemonic and a space in the rendering of opcodes 0 to 5. -/
def operandText (op : Opcode) (ad : Addr) : String :=
  if op.toNat ≤ 3 then "A, " ++ hex2 ad else hex2 ad

theorem operandText_inj {op : Opcode} {a b : Addr} (h : operandText op a = operandText op b) :
    a = b := by
  unfold operandText at h
  split_ifs at h
  · exact hex2_inj ((String.append_right_inj _).1 h)
  · exact hex2_inj h

theorem disassemble_of_operand {w : Byte} (h : (opcode w).toNat ≤ 5) :
    disassemble w = mnemonic (opcode w) ++ " " ++ operandText (opcode w) (address w) := by
  unfold disassemble operandText
  split_ifs <;> simp only [String.append_assoc]

/-- The rendering of opcodes 6 and 7 is the mnemonic alone. -/
theorem disassemble_of_ignored {w : Byte} (h : 6 ≤ (opcode w).toNat) :
    disassemble w = mnemonic (opcode w) := by
  rw [disassemble, if_neg (by omega), if_neg (by omega)]

/-- The characters of a text before its first space. -/
def firstWord (s : String) : List Char := s.toList.takeWhile (· ≠ ' ')

theorem takeWhile_ne_append_cons (c : Char) (l r : List Char) :
    (l ++ c :: r).takeWhile (· ≠ c) = l.takeWhile (· ≠ c) := by
  induction l with
  | nil => simp
  | cons d l ih => simp only [List.cons_append, List.takeWhile_cons, ih]

theorem firstWord_append_space (s t : String) : firstWord (s ++ " " ++ t) = firstWord s := by
  have hchars : (s ++ " " ++ t).toList = s.toList ++ ' ' :: t.toList := by simp
  rw [firstWord, hchars, takeWhile_ne_append_cons, firstWord]

/-- The first word of a rendering is the mnemonic's. -/
theorem firstWord_disassemble (w : Byte) :
    firstWord (disassemble w) = firstWord (mnemonic (opcode w)) := by
  by_cases h : (opcode w).toNat ≤ 5
  · rw [disassemble_of_operand h, firstWord_append_space]
  · rw [disassemble_of_ignored (by omega)]

/-- The eight mnemonics differ in their first words. -/
theorem firstWord_mnemonic_inj {a b : Opcode}
    (h : firstWord (mnemonic a) = firstWord (mnemonic b)) : a = b := by
  revert a b
  decide

theorem opcode_eq_of_disassemble_eq {v w : Byte} (h : disassemble v = disassemble w) :
    opcode v = opcode w :=
  firstWord_mnemonic_inj (by rw [← firstWord_disassemble, h, firstWord_disassemble])

theorem disassemble_eq_of_ignored {v w : Byte} (hop : opcode v = opcode w)
    (hv : 6 ≤ (opcode v).toNat) : disassemble v = disassemble w := by
  rw [disassemble_of_ignored hv, disassemble_of_ignored (hop ▸ hv), hop]

/-! ### The table word -/

/-- A table word of 8 bits is one cell. -/
theorem tableCells_eight (w : Nat) : tableCells 8 w = [BitVec.ofNat 8 w] := by
  have hbits : BitVec.ofNat 8 (w % 2 ^ 8) = BitVec.ofNat 8 w := BitVec.eq_of_toNat_eq (by simp)
  rw [← hbits]
  rfl

theorem decodeTableWord_eight (w : Nat) :
    decodeTableWord 8 w = some (decode (BitVec.ofNat 8 w)) := by
  rw [decodeTableWord, tableCells_eight]
  rfl

end Sys2Proof

namespace Sys2Proof.Machine

/-! ### Execution -/

theorem State.withFetchWord_eight (s : State) (w : Nat) :
    s.withFetchWord 8 w = s.placeWord (BitVec.ofNat 8 w) := by
  rw [State.withFetchWord, tableCells_eight]

theorem exec_decode_of_opcode_six {w : Byte} (h : opcode w = 6) (s : State) :
    exec (decode w) s = .next (s.raise .illegalInstruction) := by
  rw [decode_eq_of_fields (i := .illegal (address w)) h rfl, exec_illegal]

theorem exec_decode_of_opcode_seven {w : Byte} (h : opcode w = 7) (s : State) :
    exec (decode w) s = .next s.haltRun := by
  rw [decode_eq_of_fields (i := .halt (address w)) h rfl, exec_halt]

/-- The execute part takes the fault of the illegal opcode exactly on that opcode. -/
theorem Executes.status_eq_illegal_iff {i : Instr} {s t : State} (h : Executes s i t)
    (hrun : s.status = .running) :
    t.status = .faulted .illegalInstruction ↔ i.opcodeField = 6 := by
  cases h with
  | illegal ad => exact iff_of_true rfl rfl
  | _ => simp [hrun, Instr.opcodeField]

/-- The range check raises its own fault only. -/
theorem State.rangeCheck_status_eq_faulted_iff {s : State} {r : FaultReason}
    (hr : r ≠ .programCounterOutOfRange) :
    s.rangeCheck.status = .faulted r ↔ s.status = .faulted r := by
  rw [State.rangeCheck_eq]
  split_ifs with h
  · simp [h.1, hr.symm]
  · rfl

end Sys2Proof.Machine

namespace Sys2Proof.Safety

open Sys2Proof.Machine

theorem fetches_placeWord (s : State) (w : Byte) : Fetches (s.placeWord w) w :=
  ⟨rfl, s.fetchablePc_le, Memory.read_write_same s.mem s.fetchablePc.toNat w⟩

/-- Settles O3: decoding and encoding are inverse to each other, and an instruction is one byte. -/
theorem decodeAndEncodeAgree : Obligations.DecodeAndEncodeAgree := by
  refine ⟨fun i => ⟨i.wellFormed_eq_true, decode_encode i, fun rest => ?_⟩, encode_decode⟩
  rw [decodeBytes, decode_encode]

/-- Settles O2: on its range `encodeFields` joins the two fields, and the extractors take a join
apart. -/
theorem encodeFieldsInvertsTheExtractors : Obligations.EncodeFieldsInvertsTheExtractors := by
  refine ⟨fun op ad h => ?_, fun op ad h => ?_, fun w => ?_⟩
  · have hop : (BitVec.ofNat 3 op).toNat = op := Nat.mod_eq_of_lt (by omega)
    have had : (BitVec.ofNat 5 ad).toNat = ad := Nat.mod_eq_of_lt (by omega)
    refine ⟨_, by rw [encodeFields_eq, if_pos h], ?_, ?_, ?_⟩
    · rw [joinFields_toNat, hop, had]
    · rw [opcode_joinFields, hop]
    · rw [address_joinFields, had]
  · rw [encodeFields_eq, if_neg h]
  · rw [encodeFields_toNat, joinFields_opcode_address]

/-- Settles O31: neither the rendering nor the execute arm of opcodes 6 and 7 looks at the address
field. -/
theorem addressBitsOfHaltAndIllegalAreIgnored :
    Obligations.AddressBitsOfHaltAndIllegalAreIgnored := by
  refine ⟨by decide, fun v w hop hv => ⟨disassemble_eq_of_ignored hop hv, ?_⟩⟩
  intro s
  obtain h | h : opcode v = 6 ∨ opcode v = 7 := by bv_omega
  · rw [exec_decode_of_opcode_six h, exec_decode_of_opcode_six (hop ▸ h)]
  · rw [exec_decode_of_opcode_seven h, exec_decode_of_opcode_seven (hop ▸ h)]

/-- Settles O32: the fault comes from the execute part, where opcode 6 alone takes it, and the words
of opcode 6 are a range. -/
theorem illegalWordsAreExactlyC0ToDF : Obligations.IllegalWordsAreExactlyC0ToDF := by
  intro s w h
  obtain ⟨u, hu⟩ := exists_executes (decode w) s
  refine ⟨_, step_of_fetches h hu, ?_⟩
  calc u.rangeCheck.countStep.status = .faulted .illegalInstruction
      ↔ u.status = .faulted .illegalInstruction :=
        State.rangeCheck_status_eq_faulted_iff (by decide)
    _ ↔ (decode w).opcodeField = 6 := hu.status_eq_illegal_iff h.running
    _ ↔ opcode w = 6 := by rw [(decode_fields w).1]
    _ ↔ 0xc0 ≤ w.toNat ∧ w.toNat ≤ 0xdf := opcode_eq_iff_range

/-- Settles O1: masking is the remainder by a power of two, shifting the quotient. -/
theorem fieldExtractorsSplitTheWord : Obligations.FieldExtractorsSplitTheWord := by
  intro w
  refine ⟨⟨?_, fun i hi => ?_, opcode_toNat w, Nat.le_of_lt_succ (opcode w).isLt⟩,
    ⟨?_, fun i hi => ?_, address_toNat w, Nat.le_of_lt_succ (address w).isLt⟩⟩
  · have hmask := Nat.and_two_pow_sub_one_eq_mod (w.toNat >>> 5) 3
    have := w.isLt
    rw [opcode_toNat, BitVec.toNat_and, BitVec.toNat_ushiftRight]
    refine Eq.trans ?_ hmask.symm
    rw [Nat.shiftRight_eq_div_pow]
    omega
  · simp [opcode, hi]
  · rw [address_toNat, BitVec.toNat_and]
    exact (Nat.and_two_pow_sub_one_eq_mod w.toNat 5).symm
  · simp [address, hi]

/-- Settles O4: each range is the range of its opcode. -/
theorem wordRangesSelectTheInstruction : Obligations.WordRangesSelectTheInstruction := by
  intro w
  refine ⟨fun h => ?_, fun h => ?_, fun h => ?_, fun h => ?_, fun h => ?_, fun h => ?_,
    fun h => ?_, fun h => ?_⟩
  · exact decode_eq_of_range (.ld _) rfl ⟨Nat.zero_le _, h⟩
  · exact decode_eq_of_range (.sub _) rfl h
  · exact decode_eq_of_range (.add _) rfl h
  · exact decode_eq_of_range (.st _) rfl h
  · exact decode_eq_of_range (.b _) rfl h
  · exact decode_eq_of_range (.bneg _) rfl h
  · exact decode_eq_of_range (.illegal _) rfl h
  · exact decode_eq_of_range (.halt _) rfl ⟨h, Nat.le_of_lt_succ w.isLt⟩

/-- Settles O5: each word is the encoding of its instruction. -/
theorem wordsWrittenOutDecode : Obligations.WordsWrittenOutDecode :=
  ⟨decode_encode (.ld 24), decode_encode (.sub 31), decode_encode (.add 6), decode_encode (.st 24),
    decode_encode (.b 1), decode_encode (.bneg 5), decode_encode (.illegal 5),
    decode_encode (.halt 0)⟩

/-- Settles O6: the two functions of the renderer read the two tables, each at the number the word
holds there. -/
theorem renderingFollowsTheTables : Obligations.RenderingFollowsTheTables := by
  intro w digit hh mn
  have hmn : mnemonic (opcode w) = mn := by rw [mnemonic_eq_getD, opcode_toNat]
  have hhex : hex2 (address w) = hh := by
    have hlow : w.toNat % 32 % 16 = w.toNat % 16 := by omega
    rw [hex2, address_toNat, hlow, hexDigit_eq_getD (by omega), hexDigit_eq_getD (by omega)]
  have hsep : " " ++ "A, " = " A, " := rfl
  rw [disassemble, hmn, hhex, opcode_toNat, String.append_assoc (s₁ := mn), hsep]

/-- Settles O7: the first word of a rendering tells the opcode, and the rest of it, for opcodes 0 to
5, the address. -/
theorem renderingsCoincideOnlyOnIgnoredBits : Obligations.RenderingsCoincideOnlyOnIgnoredBits := by
  intro v w
  constructor
  · intro h
    have hop := opcode_eq_of_disassemble_eq h
    by_cases hv : (opcode v).toNat ≤ 5
    · rw [disassemble_of_operand hv, disassemble_of_operand (hop ▸ hv), hop] at h
      have had := operandText_inj ((String.append_right_inj _).1 h)
      rw [← joinFields_opcode_address v, hop, had, joinFields_opcode_address]
      exact .inl rfl
    · exact .inr ⟨hop, by omega⟩
  · rintro (rfl | ⟨hop, hv⟩)
    · rfl
    · exact disassemble_eq_of_ignored hop hv

/-- Settles O49: an 8-bit table word is one cell, which is placed where the next cycle fetches. -/
theorem placedWordIsTheNextToRun : Obligations.PlacedWordIsTheNextToRun := by
  intro s w _
  rw [State.withFetchWord_eight]
  exact ⟨decodeTableWord_eight w, fetches_placeWord s _⟩

end Sys2Proof.Safety
end

section
/-! PROOFS of the statements about spec/40_cycle.md. First the facts they need: the arithmetic as
numbers, where the execute part can leave `pc`, what the end of a cycle is, and the view of a state
under each update. `view_of_executes` is the commuting square of the execute part with the
pseudocode's; those of a cycle and of a run are built on it. -/

namespace Sys2Proof.Machine

/-! ### The arithmetic as numbers -/

theorem wrappingAdd_toNat (a m : Byte) :
    (wrappingAdd a m).toNat = (a.toNat + m.toNat) % 256 :=
  BitVec.toNat_add a m

theorem wrappingSub_toNat (a m : Byte) :
    (wrappingSub a m).toNat = (((a.toNat : Int) - (m.toNat : Int)) % 256).toNat := by
  have := m.isLt
  rw [wrappingSub, BitVec.toNat_sub]
  omega

/-- "Negative" is the bit of weight 128. -/
theorem isNegative_iff_div_mod {v : Byte} : isNegative v = true ↔ v.toNat / 128 % 2 = 1 := by
  simp [isNegative, BitVec.getLsbD, Nat.testBit_eq_decide_div_mod_eq]

/-! ### The cycle -/

section
variable {i : Instr} {s t : State}

/-- Where the execute part can leave `pc`: at the next cell, where it was, or at a branch target. -/
theorem Executes.pc_eq_or (h : Executes s i t) :
    t.pc = s.advance.pc ∨ t.pc = s.pc ∨ ∃ ad, t.pc = branchTarget ad := by
  cases h with
  | b ad | bnegTaken ad => exact .inr (.inr ⟨ad, rfl⟩)
  | stRom | illegal | halt => exact .inr (.inl rfl)
  | _ => exact .inl rfl

/-- The execute part leaves `pc` above 31 only by advancing from 31. -/
theorem Executes.pc_eq_of_gt (h : Executes s i t) (hpc : s.pc.toNat ≤ 31)
    (hgt : 31 < t.pc.toNat) : t.pc.toNat = 32 ∧ s.pc.toNat = 31 := by
  obtain hadvance | hsame | ⟨ad, htarget⟩ := h.pc_eq_or
  · rw [hadvance, State.advance_pc_toNat hpc] at hgt ⊢
    omega
  · rw [hsame] at hgt
    omega
  · rw [htarget, branchTarget_toNat] at hgt
    omega

end

/-- The state a cycle ends in, given the one its execute part left. -/
theorem State.rangeCheck_countStep_eq (s : State) :
    s.rangeCheck.countStep = { s with
      status := if s.status = .running ∧ 31 < s.pc.toNat
        then .faulted .programCounterOutOfRange else s.status
      steps := s.steps + 1 } := by
  rw [State.rangeCheck_eq]
  rfl

/-- A branch to where `pc` is changes nothing. -/
theorem State.setPc_branchTarget_eq_self {s : State} {ad : Addr}
    (h : s.pc.toNat = ad.toNat) : s.setPc (branchTarget ad) = s := by
  have htarget : branchTarget ad = s.pc := by
    apply BitVec.eq_of_toNat_eq
    rw [branchTarget_toNat, h]
  rw [htarget]
  rfl

theorem State.addSteps_addSteps (s : State) (j k : Nat) :
    (s.addSteps j).addSteps k = s.addSteps (j + k) := by
  simp [State.addSteps, Nat.add_assoc]

end Sys2Proof.Machine

namespace Sys2Proof.Reference

open Sys2Proof.Machine Sys2Proof.Safety

/-! ### The view of a state under each update -/

section
variable (s : State)

theorem view_setAcc (v : Byte) : view (s.setAcc v) = { view s with A := v.toNat } := rfl

theorem view_setPc (p : ProgramCounter) : view (s.setPc p) = { view s with pc := p.toNat } := rfl

theorem view_raise (r : FaultReason) :
    view (s.raise r) = { view s with status := .faulted r } := rfl

theorem view_haltRun : view s.haltRun = { view s with status := .haltedNormally } := rfl

theorem view_countStep : view s.countStep = { view s with steps := (view s).steps + 1 } := rfl

theorem view_setMem_write (a : Nat) (v : Byte) :
    view (s.setMem (s.mem.write a v)) =
      { view s with M := fun x => if x = a then v.toNat else (view s).M x } := by
  have hcells : (fun x => ((s.mem.write a v).read x).toNat) =
      fun x => if x = a then v.toNat else (s.mem.read x).toNat := by
    funext x
    rw [Memory.read_write, apply_ite BitVec.toNat]
  exact congrArg (fun M => { view s with M := M }) hcells

theorem view_rangeCheck : view s.rangeCheck = check (view s) :=
  apply_ite view _ _ _

end

theorem view_advance {s : State} (h : s.pc.toNat ≤ 31) :
    view s.advance = { view s with pc := (view s).pc + 1 } :=
  congrArg (fun p => { view s with pc := p }) (State.advance_pc_toNat h)

theorem view_resetWith (rom : Config.RomImage) : view (State.resetWith rom) = pseudoReset rom := by
  have hcells : (fun a => ((State.resetWith rom).cell a).toNat) = (pseudoReset rom).M := by
    funext a
    rw [State.resetWith_cell, apply_dite BitVec.toNat]
    rfl
  exact congrArg (fun M => { pseudoReset rom with M := M }) hcells

/-! ### The commuting squares: execute, a cycle, a run -/

section
variable {s t : State}

/-- The execute part, seen as numbers, is the pseudocode's arm for the instruction's two fields. -/
theorem view_of_executes {i : Instr} (h : Executes s i t)
    (hpc : s.pc.toNat ≤ 31) :
    view t = execute i.opcodeField.toNat i.addressField.toNat (view s) := by
  cases h with
  | ld ad =>
    rw [view_advance, view_setAcc]
    · rfl
    · exact hpc
  | sub ad =>
    rw [view_advance, view_setAcc, wrappingSub_toNat]
    · rfl
    · exact hpc
  | add ad =>
    rw [view_advance, view_setAcc, wrappingAdd_toNat]
    · rfl
    · exact hpc
  | stRam ad ram =>
    rw [view_advance, view_setMem_write]
    · exact (if_pos ram).symm
    · exact hpc
  | stRom ad rom =>
    rw [view_raise]
    exact (if_neg (Nat.not_le.2 rom)).symm
  | b ad =>
    rw [view_setPc, branchTarget_toNat]
    rfl
  | bnegTaken ad neg =>
    rw [view_setPc, branchTarget_toNat]
    exact (if_pos (isNegative_iff_div_mod.1 neg)).symm
  | bnegUntaken ad nonneg =>
    rw [view_advance hpc]
    refine (if_neg fun hbit => ?_).symm
    exact Bool.false_ne_true (nonneg.symm.trans (isNegative_iff_div_mod.2 hbit))
  | illegal ad => exact view_raise s .illegalInstruction
  | halt ad => exact view_haltRun s

/-- One whole cycle: the fetched number's quotient and remainder are the two fields of the decoded
instruction, and the check and the count commute with the view. -/
theorem exists_step_view_eq (hrun : s.status = .running) (hpc : s.pc.toNat ≤ 31) :
    ∃ t, step s = .next t ∧ view t = pseudoStep (view s) := by
  obtain ⟨u, hu⟩ := exists_executes (decode (s.cell s.pc.toNat)) s
  refine ⟨_, step_of_fetches ⟨hrun, hpc, rfl⟩ hu, ?_⟩
  obtain ⟨hop, had⟩ := decode_fields (s.cell s.pc.toNat)
  have hexec := view_of_executes hu hpc
  rw [hop, had, opcode_toNat, address_toNat] at hexec
  rw [view_countStep, view_rangeCheck, hexec]
  rfl

/-- A run from a state that meets the invariant, which gives each cycle its `pc` in range. -/
theorem exists_runFor_view_eq (hinv : Inv s) (n : Nat) :
    ∃ t, runFor n s = .next t ∧ view t = pseudoRun n (view s) := by
  induction n generalizing s with
  | zero => exact ⟨s, rfl, rfl⟩
  | succ n ih =>
    by_cases hrun : s.status = .running
    · obtain ⟨u, hstep, hview⟩ := exists_step_view_eq hrun (hinv.running_pc hrun)
      rw [runFor_succ n hstep, pseudoRun, if_pos (show (view s).status = .running from hrun),
        ← hview]
      exact ih (inv_step hinv hstep)
    · refine ⟨s, runFor_of_terminal hrun (n + 1), ?_⟩
      rw [pseudoRun, if_neg (show (view s).status ≠ .running from hrun)]

end

end Sys2Proof.Reference

namespace Sys2Proof.Safety

open Sys2Proof.Machine Sys2Proof.Reference

/-! ### A branch to itself -/

/-- The cycle of a branch to itself changes nothing but the count. -/
theorem step_of_branch_to_itself {s : State} {ad : Addr} (h : Fetches s (encode (.b ad)))
    (hself : s.pc.toNat = ad.toNat) : step s = .next (s.addSteps 1) := by
  have hexec : Executes s (decode (encode (.b ad))) s := by
    have hb := Executes.b (s := s) ad
    rwa [State.setPc_branchTarget_eq_self hself, ← decode_encode (.b ad)] at hb
  rw [step_of_fetches h hexec, State.rangeCheck_of_pc_le h.inRange]
  rfl

theorem Fetches.addSteps {s : State} {w : Byte} (h : Fetches s w) (k : Nat) :
    Fetches (s.addSteps k) w :=
  ⟨h.running, h.inRange, h.word⟩

/-! ### The statements -/

/-- Settles O11: the commuting square of one cycle. -/
theorem stepRefinesThePseudocode : Obligations.StepRefinesThePseudocode :=
  fun _ => exists_step_view_eq

/-- Settles O12: the reset state meets the invariant, and its view is the pseudocode's reset. -/
theorem runsFromResetRefineThePseudocode : Obligations.RunsFromResetRefineThePseudocode := by
  intro rom n
  rw [← view_resetWith]
  exact exists_runFor_view_eq (inv_resetWith rom) n

/-- Settles O13, by induction on the number of steps: after each the machine is where it was, with
a larger count. -/
theorem branchToItselfNeverEnds : Obligations.BranchToItselfNeverEnds := by
  intro s ad n h hself
  change runFor n s = .next (s.addSteps n)
  induction n generalizing s with
  | zero => rfl
  | succ n ih =>
    rw [runFor_succ n (step_of_branch_to_itself h hself), ih _ (h.addSteps 1) hself,
      State.addSteps_addSteps, Nat.add_comm 1 n]

/-- Settles O10: a terminal state steps to itself, and so stays however often it is stepped. -/
theorem terminalStateNeverChanges : Obligations.TerminalStateNeverChanges :=
  fun _ hterm => ⟨step_of_terminal hterm, runFor_of_terminal hterm⟩

/-- Settles O9: where the execute part can leave `pc`, and what the range check makes of it. -/
theorem rangeCheckChangesStatusOnly : Obligations.RangeCheckChangesStatusOnly := by
  intro s w t h hexec
  have ht := exec_eq_next_iff.1 hexec
  refine ⟨ht.pc_eq_of_gt h.inRange, _, step_of_fetches h ht, ?_⟩
  rw [State.rangeCheck_countStep_eq]
  exact ⟨rfl, rfl, rfl, fun hout => if_pos hout, fun hin => if_neg hin⟩

/-- Settles O8: the execute part always answers, and the rest of the cycle is the range check and
the count. -/
theorem stepRunsTheDecodedInstruction : Obligations.StepRunsTheDecodedInstruction := by
  rintro s w i h rfl
  obtain ⟨t, ht⟩ := exists_executes (decode w) s
  refine ⟨t, ht.exec_eq, ?_⟩
  rw [step_of_fetches h ht, State.rangeCheck_countStep_eq]

end Sys2Proof.Safety
end

section
/-! PROOFS of the statements about spec/41_load_arith.md. First the facts they need: the rendering of
a word of theirs, the arithmetic over the integers, unsigned and signed, and the whole cycle of an
instruction that advances `pc`. `ld`, `sub` and `add` differ only in the value they put into the
accumulator, so one lemma, `step_of_fetches_setAcc`, is the cycle of all three. -/

namespace Sys2Proof

/-! ### The rendering of a word with an accumulator operand -/

/-- The rendering of opcodes 0 to 3 names the accumulator. -/
theorem disassemble_joinFields_of_le {op : Opcode} (h : op.toNat ≤ 3) (ad : Addr) :
    disassemble (joinFields op ad) = mnemonic op ++ " A, " ++ hex2 ad := by
  have hsep : " " ++ "A, " = " A, " := rfl
  rw [disassemble, opcode_joinFields, address_joinFields, if_pos h,
    String.append_assoc (s₁ := mnemonic op), hsep]

end Sys2Proof

namespace Sys2Proof.Machine

/-! ### The arithmetic over the integers -/

theorem wrappingSub_toNat_int (a m : Byte) :
    ((wrappingSub a m).toNat : Int) = ((a.toNat : Int) - (m.toNat : Int)) % 256 := by
  rw [wrappingSub_toNat, Int.toNat_of_nonneg (Int.emod_nonneg _ (by decide))]

/-- A sum that fits is exact. -/
theorem wrappingAdd_toNat_of_le {a m : Byte} (h : a.toNat + m.toNat ≤ 255) :
    (wrappingAdd a m).toNat = a.toNat + m.toNat := by
  rw [wrappingAdd_toNat, Nat.mod_eq_of_lt (by omega)]

/-- A sum that does not fit loses its carry. -/
theorem wrappingAdd_toNat_of_ge {a m : Byte} (h : 256 ≤ a.toNat + m.toNat) :
    (wrappingAdd a m).toNat + 256 = a.toNat + m.toNat := by
  have := a.isLt
  have := m.isLt
  rw [wrappingAdd_toNat]
  omega

/-- A difference that is not negative is exact. -/
theorem wrappingSub_toNat_of_le {a m : Byte} (h : m.toNat ≤ a.toNat) :
    (wrappingSub a m).toNat + m.toNat = a.toNat := by
  have := wrappingSub_toNat_int a m
  have := a.isLt
  omega

/-- A negative difference borrows. -/
theorem wrappingSub_toNat_of_lt {a m : Byte} (h : a.toNat < m.toNat) :
    (wrappingSub a m).toNat + m.toNat = a.toNat + 256 := by
  have := wrappingSub_toNat_int a m
  have := m.isLt
  omega

/-- The signed and the unsigned reading of a byte agree modulo 256. -/
theorem sint8_modEq_toNat (v : Byte) : sint8 v ≡ v.toNat [ZMOD 256] := by
  unfold sint8
  split_ifs
  · rfl
  · exact Int.sub_modulus_modEq_iff.2 rfl

theorem sint8_wrappingAdd_modEq (a m : Byte) :
    sint8 (wrappingAdd a m) ≡ sint8 a + sint8 m [ZMOD 256] :=
  calc sint8 (wrappingAdd a m)
      ≡ (wrappingAdd a m).toNat [ZMOD 256] := sint8_modEq_toNat _
    _ ≡ a.toNat + m.toNat [ZMOD 256] := by
        rw [wrappingAdd_toNat, Int.natCast_mod, Int.natCast_add]
        exact Int.mod_modEq _ _
    _ ≡ sint8 a + sint8 m [ZMOD 256] :=
        ((sint8_modEq_toNat a).add (sint8_modEq_toNat m)).symm

theorem sint8_wrappingSub_modEq (a m : Byte) :
    sint8 (wrappingSub a m) ≡ sint8 a - sint8 m [ZMOD 256] :=
  calc sint8 (wrappingSub a m)
      ≡ (wrappingSub a m).toNat [ZMOD 256] := sint8_modEq_toNat _
    _ ≡ a.toNat - m.toNat [ZMOD 256] := by
        rw [wrappingSub_toNat_int]
        exact Int.mod_modEq _ _
    _ ≡ sint8 a - sint8 m [ZMOD 256] :=
        ((sint8_modEq_toNat a).sub (sint8_modEq_toNat m)).symm

end Sys2Proof.Machine

namespace Sys2Proof.Safety

open Sys2Proof.Machine

/-! ### The cycle of an instruction that advances -/

section
variable {s : State}

/-- What the end of a cycle makes of an advance: the count is one more, and the range check fails
exactly when `pc` was at the last cell. -/
theorem rangeCheck_countStep_advance (hrun : s.status = .running) (hpc : s.pc.toNat ≤ 31) :
    s.advance.rangeCheck.countStep =
      { s with pc := s.pc + 1, status := statusAfterAdvance s, steps := s.steps + 1 } := by
  have hlast : 31 < s.advance.pc.toNat ↔ s.pc.toNat = 31 := by
    rw [State.advance_pc_toNat hpc]
    omega
  simp only [State.rangeCheck_countStep_eq, hlast, statusAfterAdvance, State.advance_status, hrun,
    true_and]
  rfl

/-- The whole cycle of an instruction that puts `v` into the accumulator and advances. -/
theorem step_of_fetches_setAcc {i : Instr} {v : Byte} (h : Fetches s (encode i))
    (hexec : Executes s i (s.setAcc v).advance) :
    step s = .next { s with
      acc := v, pc := s.pc + 1, status := statusAfterAdvance s, steps := s.steps + 1 } := by
  rw [step_of_fetches h (by rwa [decode_encode]),
    rangeCheck_countStep_advance (s := s.setAcc v) h.running h.inRange]
  rfl

end

/-! ### The statements -/

/-- Settles O15: the value put into the accumulator is the cell. -/
theorem ldLoadsTheCell : Obligations.LdLoadsTheCell := by
  intro s ad
  refine ⟨exec_ld ad s, (joinFields_toNat 0 ad).trans (Nat.zero_add _),
    disassemble_joinFields_of_le (op := 0) (by decide) ad, fun h => ?_⟩
  exact ⟨State.advance_pc_toNat h.inRange, step_of_fetches_setAcc h (.ld ad)⟩

/-- Settles O16: the value put into the accumulator is `wrappingSub`'s. -/
theorem subSubtractsTheCell : Obligations.SubSubtractsTheCell := by
  intro s ad
  refine ⟨wrappingSub s.acc (s.cell ad.toNat), wrappingSub_toNat_int _ _, exec_sub ad s,
    joinFields_toNat 1 ad, disassemble_joinFields_of_le (op := 1) (by decide) ad,
    fun h => ?_⟩
  exact ⟨State.advance_pc_toNat h.inRange, step_of_fetches_setAcc h (.sub ad)⟩

/-- Settles O17: the value put into the accumulator is `wrappingAdd`'s. -/
theorem addAddsTheCell : Obligations.AddAddsTheCell := by
  intro s ad
  refine ⟨wrappingAdd s.acc (s.cell ad.toNat), wrappingAdd_toNat _ _, exec_add ad s,
    joinFields_toNat 2 ad, disassemble_joinFields_of_le (op := 2) (by decide) ad,
    fun h => ?_⟩
  exact ⟨State.advance_pc_toNat h.inRange, step_of_fetches_setAcc h (.add ad)⟩

/-- Settles O18: both arms leave the status alone, and the rest are the laws of `wrappingAdd` and
`wrappingSub`. -/
theorem arithmeticWrapsSilently : Obligations.ArithmeticWrapsSilently := by
  intro s ad
  refine ⟨_, _, exec_add ad s, exec_sub ad s, rfl, rfl, wrappingAdd_toNat_of_le,
    wrappingAdd_toNat_of_ge, wrappingSub_toNat_of_le, wrappingSub_toNat_of_lt, ?_, ?_⟩
  · exact Int.emod_eq_emod_iff_emod_sub_eq_zero.1 (sint8_wrappingAdd_modEq s.acc (s.operand ad))
  · exact Int.emod_eq_emod_iff_emod_sub_eq_zero.1 (sint8_wrappingSub_modEq s.acc (s.operand ad))

end Sys2Proof.Safety
end

section
/-! PROOFS of the statement about spec/42_store.md. First the two cycles a `st` can have: the one
that stores and advances, and the one whose execute part raises a fault. -/

namespace Sys2Proof.Safety

open Sys2Proof.Machine

section
variable {s : State}

/-- The whole cycle of an instruction that faults: the range check is skipped, the cycle counts. -/
theorem step_of_fetches_raise {i : Instr} {r : FaultReason} (h : Fetches s (encode i))
    (hexec : Executes s i (s.raise r)) :
    step s = .next { s with status := .faulted r, steps := s.steps + 1 } := by
  have hterm : (s.raise r).status ≠ .running := nofun
  rw [step_of_fetches h (by rwa [decode_encode]), State.rangeCheck_of_terminal hterm]
  rfl

/-- The whole cycle of a `st` to RAM, its range check and count written out. -/
theorem step_of_fetches_st_ram {ad : Addr} (h : Fetches s (encode (.st ad)))
    (ram : 24 ≤ ad.toNat) :
    step s = .next { s with
      mem := s.mem.write ad.toNat s.acc, pc := s.pc + 1, status := statusAfterAdvance s,
      steps := s.steps + 1 } := by
  rw [step_of_fetches_st h ram,
    rangeCheck_countStep_advance (s := s.setMem (s.mem.write ad.toNat s.acc)) h.running h.inRange]
  rfl

end

/-- Settles O19: the two ways through `st`, each as execute part and as whole cycle; the memory after
a store is the one with the addressed cell written. -/
theorem stStoresToRamOrFaults : Obligations.StStoresToRamOrFaults := by
  intro s ad
  refine ⟨joinFields_toNat 3 ad, disassemble_joinFields_of_le (op := 3) (by decide) ad,
    fun ram => ⟨s.mem.write ad.toNat s.acc, ?_⟩, fun rom => ?_⟩
  · exact ⟨(Executes.stRam ad ram).exec_eq, Memory.read_write_same s.mem _ s.acc,
      fun x => Memory.read_write_of_ne s.mem s.acc,
      fun h => ⟨State.advance_pc_toNat h.inRange, step_of_fetches_st_ram h ram⟩⟩
  · exact ⟨(Executes.stRom ad rom).exec_eq, fun h => step_of_fetches_raise h (.stRom ad rom)⟩

end Sys2Proof.Safety
end

section
/-! PROOFS of the statements about spec/43_branch.md. First the facts they need: the rendering of a
word of theirs, the other two ways of saying "negative", and the two cycles a branch can have: the
one that sets `pc` to the target, which `b` and a taken `bneg` share, and the one that only
advances. -/

namespace Sys2Proof

/-! ### The rendering of a word with a target operand -/

/-- The rendering of opcodes 4 and 5 names the target alone. -/
theorem disassemble_joinFields_of_target {op : Opcode} (hlo : 4 ≤ op.toNat) (hhi : op.toNat ≤ 5)
    (ad : Addr) : disassemble (joinFields op ad) = mnemonic op ++ " " ++ hex2 ad := by
  rw [disassemble_of_operand (by rwa [opcode_joinFields]), opcode_joinFields, address_joinFields,
    operandText, if_neg (by omega)]

end Sys2Proof

namespace Sys2Proof.Machine

/-! ### The condition of `bneg` -/

theorem isNegative_iff_le {v : Byte} : isNegative v = true ↔ 128 ≤ v.toNat := by
  have := v.isLt
  rw [isNegative_iff_div_mod]
  omega

theorem sint8_neg_iff {v : Byte} : sint8 v < 0 ↔ 128 ≤ v.toNat := by
  have := v.isLt
  unfold sint8
  split_ifs <;> omega

end Sys2Proof.Machine

namespace Sys2Proof.Safety

open Sys2Proof.Machine

/-! ### The cycle of a branch -/

section
variable {s : State} {i : Instr}

/-- The whole cycle of an instruction that branches: the target is at most 31, so the range check
passes wherever `pc` was. -/
theorem step_of_fetches_setPc {ad : Addr} (h : Fetches s (encode i))
    (hexec : Executes s i (s.setPc (branchTarget ad))) :
    step s = .next { s with pc := branchTarget ad, steps := s.steps + 1 } := by
  have htarget : (s.setPc (branchTarget ad)).pc.toNat ≤ 31 := by
    rw [State.setPc_pc, branchTarget_toNat]
    exact Nat.le_of_lt_succ ad.isLt
  rw [step_of_fetches h (by rwa [decode_encode]), State.rangeCheck_of_pc_le htarget]
  rfl

/-- The whole cycle of an instruction that does nothing but advance. -/
theorem step_of_fetches_advance (h : Fetches s (encode i)) (hexec : Executes s i s.advance) :
    step s = .next { s with
      pc := s.pc + 1, status := statusAfterAdvance s, steps := s.steps + 1 } := by
  rw [step_of_fetches h (by rwa [decode_encode]),
    rangeCheck_countStep_advance h.running h.inRange]

end

/-! ### The statements -/

/-- Settles O27: the one way through `b`, as execute part and as whole cycle. -/
theorem branchSetsThePc : Obligations.BranchSetsThePc := by
  intro s ad
  exact ⟨branchTarget ad, branchTarget_toNat ad, exec_b ad s, joinFields_toNat 4 ad,
    disassemble_joinFields_of_target (op := 4) (by decide) (by decide) ad,
    fun h => step_of_fetches_setPc h (.b ad)⟩

/-- Settles O28: the three ways of saying "negative" agree, and the two ways through `bneg`, each as
execute part and as whole cycle, follow it. -/
theorem bnegBranchesWhenNegative : Obligations.BnegBranchesWhenNegative := by
  intro s ad
  refine ⟨branchTarget ad, branchTarget_toNat ad, isNegative_iff_le,
    isNegative_iff_le.trans sint8_neg_iff.symm, joinFields_toNat 5 ad,
    disassemble_joinFields_of_target (op := 5) (by decide) (by decide) ad,
    fun neg => ?_, fun nonneg => ?_⟩
  · have htaken : Executes s (.bneg ad) (s.setPc (branchTarget ad)) := .bnegTaken ad neg
    exact ⟨htaken.exec_eq, fun h => step_of_fetches_setPc h htaken⟩
  · have huntaken : Executes s (.bneg ad) s.advance := .bnegUntaken ad nonneg
    exact ⟨huntaken.exec_eq,
      fun h => ⟨State.advance_pc_toNat h.inRange, step_of_fetches_advance h huntaken⟩⟩

end Sys2Proof.Safety
end

section
/-! PROOFS of the statements about spec/44_halt_illegal.md. First the facts they need: the rendering of
a word of theirs, and the cycle of `halt`. The cycle of the illegal opcode is `step_of_fetches_raise`,
which it shares with a `st` to ROM. -/

namespace Sys2Proof

/-! ### The rendering of a word whose address bits are ignored -/

/-- The rendering of opcodes 6 and 7 does not name the address field. -/
theorem disassemble_joinFields_of_ignored {op : Opcode} (h : 6 ≤ op.toNat) (ignored : Addr) :
    disassemble (joinFields op ignored) = mnemonic op := by
  rw [disassemble_of_ignored (by rwa [opcode_joinFields]), opcode_joinFields]

end Sys2Proof

namespace Sys2Proof.Safety

open Sys2Proof.Machine

/-! ### The cycle of `halt` -/

/-- The whole cycle of an instruction that halts: the range check is skipped, the cycle counts. -/
theorem step_of_fetches_haltRun {s : State} {i : Instr} (h : Fetches s (encode i))
    (hexec : Executes s i s.haltRun) :
    step s = .next { s with status := .haltedNormally, steps := s.steps + 1 } := by
  have hterm : s.haltRun.status ≠ .running := nofun
  rw [step_of_fetches h (by rwa [decode_encode]), State.rangeCheck_of_terminal hterm]
  rfl

/-! ### The statements -/

/-- Settles O29: the one way through `halt`, as execute part and as whole cycle. -/
theorem haltEndsTheRun : Obligations.HaltEndsTheRun := by
  intro s x
  exact ⟨exec_halt x s, joinFields_toNat 7 x,
    disassemble_joinFields_of_ignored (op := 7) (by decide) x,
    fun h => step_of_fetches_haltRun h (.halt x)⟩

/-- Settles O30: the one way through the illegal opcode, as execute part and as whole cycle. -/
theorem illegalOpcodeFaults : Obligations.IllegalOpcodeFaults := by
  intro s x
  exact ⟨exec_illegal x s, joinFields_toNat 6 x,
    disassemble_joinFields_of_ignored (op := 6) (by decide) x,
    fun h => step_of_fetches_raise h (.illegal x)⟩

end Sys2Proof.Safety
end

section
/-! PROOFS of the statements about spec/60_exceptions.md. First the facts they need: which
instructions raise a fault or end the run in their execute part, which advance `pc` and so can leave
the range, and what the range check makes of either. A cycle leaves the machine `Running` exactly
when neither happens. -/

namespace Sys2Proof.Machine

/-! ### The execute part: what ends the run, what advances -/

/-- The instructions whose execute part ends the run: the illegal opcode, `halt`, and a `st` to ROM
(spec/60_exceptions.md R189). -/
def EndsInExecute : Instr → Prop
  | .st ad => ad.toNat < 24
  | .illegal _ | .halt _ => True
  | _ => False

/-- The instructions whose execute part goes on to the next cell: `ld`, `sub`, `add`, a `st` to RAM
and an untaken `bneg` (spec/60_exceptions.md R173). -/
def Advances (s : State) : Instr → Prop
  | .ld _ | .sub _ | .add _ => True
  | .st ad => 24 ≤ ad.toNat
  | .bneg _ => isNegative s.acc = false
  | .b _ | .illegal _ | .halt _ => False

/-- The advancing instructions, told by the two fields. -/
theorem advances_iff_fields {s : State} {i : Instr} :
    Advances s i ↔
      i.opcodeField.toNat ≤ 2 ∨ (i.opcodeField = 3 ∧ 24 ≤ i.addressField.toNat) ∨
        (i.opcodeField = 5 ∧ s.acc.getLsbD 7 = false) := by
  cases i
  all_goals simp [Advances, isNegative, Instr.opcodeField, Instr.addressField]

section
variable {i : Instr} {s t : State}

/-- The execute part takes the fault of an illegal write exactly on a `st` to ROM. -/
theorem Executes.status_eq_illegalWrite_iff (h : Executes s i t) (hrun : s.status = .running) :
    t.status = .faulted .illegalWrite ↔ i.opcodeField = 3 ∧ i.addressField.toNat < 24 := by
  cases h with
  | stRom ad rom => exact iff_of_true rfl ⟨rfl, rom⟩
  | stRam ad ram => simp [hrun, Instr.addressField, ram]
  | _ => simp [hrun, Instr.opcodeField]

/-- An illegal write changes nothing but the status. -/
theorem Executes.eq_raise_of_illegalWrite (h : Executes s i t) (hrun : s.status = .running)
    (hst : t.status = .faulted .illegalWrite) : t = s.raise .illegalWrite := by
  obtain hsame | ⟨ad, -, rfl⟩ | ⟨ad, -, rfl⟩ | ⟨ad, -, -, rfl⟩ := h.status_eq_or
  · rw [hsame, hrun] at hst
    cases hst
  · cases hst
  · cases hst
  · rfl

/-- The range fault is none of the execute part's. -/
theorem Executes.status_ne_rangeFault (h : Executes s i t) (hrun : s.status = .running) :
    t.status ≠ .faulted .programCounterOutOfRange := by
  obtain hsame | ⟨ad, -, rfl⟩ | ⟨ad, -, rfl⟩ | ⟨ad, -, -, rfl⟩ := h.status_eq_or
  · simp [hsame, hrun]
  all_goals simp

theorem Executes.status_eq_running_iff (h : Executes s i t) (hrun : s.status = .running) :
    t.status = .running ↔ ¬ EndsInExecute i := by
  cases h with
  | stRam ad ram => exact iff_of_true hrun (Nat.not_lt.2 ram)
  | stRom ad rom => exact iff_of_false nofun (not_not_intro rom)
  | illegal | halt => exact iff_of_false nofun (not_not_intro trivial)
  | _ => exact iff_of_true hrun id

/-- The execute part leaves a `Running` machine out of range exactly by advancing from the last
cell. -/
theorem Executes.running_and_pc_gt_iff (h : Executes s i t) (hrun : s.status = .running)
    (hpc : s.pc.toNat ≤ 31) :
    t.status = .running ∧ 31 < t.pc.toNat ↔ s.pc.toNat = 31 ∧ Advances s i := by
  have hadvance : s.status = .running ∧ 31 < s.advance.pc.toNat ↔ s.pc.toNat = 31 := by
    rw [and_iff_right hrun, State.advance_pc_toNat hpc]
    omega
  have hbranch (ad : Addr) : ¬ (s.status = .running ∧ 31 < (branchTarget ad).toNat) := by
    rw [branchTarget_toNat]
    omega
  cases h with
  | b ad => exact iff_of_false (hbranch ad) And.right
  | bnegTaken ad neg =>
    exact iff_of_false (hbranch ad) fun hlast => Bool.false_ne_true (hlast.2.symm.trans neg)
  | stRom ad rom =>
    exact iff_of_false (fun hout => nomatch hout.1) fun hlast => Nat.not_le.2 rom hlast.2
  | illegal | halt => exact iff_of_false (fun hout => nomatch hout.1) And.right
  | stRam ad ram => exact hadvance.trans (and_iff_left ram).symm
  | bnegUntaken ad nonneg => exact hadvance.trans (and_iff_left nonneg).symm
  | ld | sub | add => exact hadvance.trans (and_iff_left trivial).symm

end

/-! ### The range check -/

/-- The range check raises its fault exactly on a `Running` state out of range. -/
theorem State.rangeCheck_status_eq_rangeFault_iff {s : State}
    (h : s.status ≠ .faulted .programCounterOutOfRange) :
    s.rangeCheck.status = .faulted .programCounterOutOfRange ↔
      s.status = .running ∧ 31 < s.pc.toNat := by
  simp [State.rangeCheck_eq, h]

theorem State.rangeCheck_status_eq_running_iff {s : State} :
    s.rangeCheck.status = .running ↔
      s.status = .running ∧ ¬ (s.status = .running ∧ 31 < s.pc.toNat) := by
  by_cases hout : s.status = .running ∧ 31 < s.pc.toNat <;> simp [State.rangeCheck_eq, hout]

/-! ### The status codes -/

/-- The status a code stands for. -/
def statusOfCode (c : BitVec 3) : Status :=
  match c.toNat with
  | 0 => .running
  | 1 => .haltedNormally
  | 2 => .faulted .illegalInstruction
  | 3 => .faulted .illegalWrite
  | _ => .faulted .programCounterOutOfRange

theorem statusOfCode_statusCode : Function.LeftInverse statusOfCode statusCode
  | .running | .haltedNormally | .faulted .illegalInstruction | .faulted .illegalWrite
  | .faulted .programCounterOutOfRange => rfl

end Sys2Proof.Machine

namespace Sys2Proof.Safety

open Sys2Proof.Machine

/-! ### The list of what ends a run, and the trace -/

section
variable {s t : State} {w : Byte}

/-- A cycle's instruction goes on exactly when it does not end the run itself and does not advance
from the last cell. -/
theorem goesOn_iff (hpc : s.pc.toNat ≤ 31) :
    goesOn s w = true ↔
      ¬ EndsInExecute (decode w) ∧ ¬ (s.pc.toNat = 31 ∧ Advances s (decode w)) := by
  have hlast : s.pc.toNat < 31 ↔ ¬ s.pc.toNat = 31 := by omega
  unfold goesOn
  cases decode w with
  | st ad =>
    simp only [EndsInExecute, Advances, Bool.and_eq_true, decide_eq_true_eq]
    omega
  | bneg ad =>
    have hneg : 128 ≤ s.acc.toNat ↔ ¬ isNegative s.acc = false := by
      rw [← isNegative_iff_le, Bool.not_eq_false]
    simp only [EndsInExecute, Advances, Bool.or_eq_true, decide_eq_true_eq, hneg, hlast]
    tauto
  | _ => simp [EndsInExecute, Advances, hlast]

theorem traceOf_of_fetches (h : Fetches s w) :
    traceOf s t =
      some { pcBefore := s.pc, word := w, text := disassemble w, accAfter := t.acc } := by
  obtain ⟨hrun, hpc, rfl⟩ := h
  simp [traceOf, State.takesCycle_eq_true.2 hrun, State.fetch_eq, hpc]

theorem traceOf_of_terminal (h : s.status ≠ .running) : traceOf s t = none :=
  if_neg fun hc => h (State.takesCycle_eq_true.1 hc)

end

/-! ### A run that ends out of range -/

/-- The image whose one instruction branches to cell 31. That cell is RAM and holds 0x00 at reset, a
`ld`, which advances to 32. -/
def lastCellImage : Config.RomImage := (Vector.replicate 24 0).set 0 0x9f

/-- The end of its run: after the branch, the `ld` of cell 0 is counted once with its fault. -/
def lastCellEnd : State :=
  { State.resetWith lastCellImage with
    acc := 0x9f, pc := 32, status := .faulted .programCounterOutOfRange, steps := 2 }

theorem endsAt_lastCellEnd : EndsAt (State.resetWith lastCellImage) 2 lastCellEnd := by
  have hbranch : step (State.resetWith lastCellImage) =
      .next { State.resetWith lastCellImage with pc := 31, steps := 1 } := rfl
  have hload : step { State.resetWith lastCellImage with pc := 31, steps := 1 } =
      .next lastCellEnd := rfl
  have hend : EndsAt lastCellEnd 0 lastCellEnd := endsAt_zero nofun
  exact (hend.cons rfl hload).cons rfl hbranch

/-! ### The statements -/

/-- Settles O33: the fault comes from the execute part, which raises it on a `st` to ROM alone and
changes nothing else; the range check is then skipped. -/
theorem illegalWriteCauseAndState : Obligations.IllegalWriteCauseAndState := by
  intro s w h
  obtain ⟨u, hu⟩ := exists_executes (decode w) s
  obtain ⟨hop, had⟩ := decode_fields w
  have hexec : u.rangeCheck.countStep.status = .faulted .illegalWrite ↔
      u.status = .faulted .illegalWrite :=
    State.rangeCheck_status_eq_faulted_iff (by decide)
  refine ⟨_, step_of_fetches h hu, ?_, fun hfault => ?_⟩
  · rw [hexec, hu.status_eq_illegalWrite_iff h.running, hop, had]
  · rw [hu.eq_raise_of_illegalWrite h.running (hexec.1 hfault),
      State.rangeCheck_of_terminal (by simp)]
    rfl

/-- Settles O34: the fault comes from the range check, which finds `pc` out of range exactly after
an advance from the last cell; and the run of `lastCellImage` ends in it. -/
theorem rangeFaultCauseAndState : Obligations.RangeFaultCauseAndState := by
  refine ⟨fun s w h => ?_, lastCellImage, 2, lastCellEnd, endsAt_lastCellEnd, rfl⟩
  obtain ⟨u, hu⟩ := exists_executes (decode w) s
  obtain ⟨hop, had⟩ := decode_fields w
  have hcheck : u.rangeCheck.countStep.status = .faulted .programCounterOutOfRange ↔
      u.status = .running ∧ 31 < u.pc.toNat :=
    State.rangeCheck_status_eq_rangeFault_iff (hu.status_ne_rangeFault h.running)
  refine ⟨_, u, step_of_fetches h hu, hu.exec_eq, ?_, fun hfault => ⟨?_, ?_⟩⟩
  · rw [hcheck, hu.running_and_pc_gt_iff h.running h.inRange, advances_iff_fields, hop, had]
  · rw [State.rangeCheck_countStep_eq, if_pos (hcheck.1 hfault), hu.steps_eq]
  · obtain ⟨-, hgt⟩ := hcheck.1 hfault
    simpa using (hu.pc_eq_of_gt h.inRange hgt).1

/-- Settles O35: a cycle ends the run in its execute part or in its range check, and `goesOn`
excludes exactly these two. -/
theorem onlyTheListedCasesEndARun : Obligations.OnlyTheListedCasesEndARun := by
  intro s w h
  obtain ⟨u, hu⟩ := exists_executes (decode w) s
  refine ⟨_, step_of_fetches h hu, ?_⟩
  calc u.rangeCheck.countStep.status = .running
      ↔ u.status = .running ∧ ¬ (u.status = .running ∧ 31 < u.pc.toNat) :=
        State.rangeCheck_status_eq_running_iff
    _ ↔ ¬ EndsInExecute (decode w) ∧ ¬ (s.pc.toNat = 31 ∧ Advances s (decode w)) := by
        rw [hu.running_and_pc_gt_iff h.running h.inRange, hu.status_eq_running_iff h.running]
    _ ↔ goesOn s w = true := (goesOn_iff h.inRange).symm

/-- Settles O36: a code can be read back, so it tells its status. -/
theorem statusCodesTellTheStatusesApart : Obligations.StatusCodesTellTheStatusesApart :=
  ⟨rfl, rfl, rfl, rfl, rfl, fun _ _ h => statusOfCode_statusCode.injective h⟩

/-- Settles O37: a cycle that fetches a word always completes, and its trace is read off the state
before and the accumulator after. -/
theorem everyCycleHasItsTrace : Obligations.EveryCycleHasItsTrace := by
  refine ⟨fun s w h => ?_, fun s t hterm => traceOf_of_terminal hterm⟩
  obtain ⟨t, hstep⟩ := exists_step fun _ => h.inRange
  exact ⟨t, hstep, traceOf_of_fetches h⟩

end Sys2Proof.Safety
end

section
/-! PROOF of the statement about spec/70_reset_and_hazards.md that says what the first cycle fetches. -/

namespace Sys2Proof.Safety

open Sys2Proof.Machine

/-- Settles O45: after a reset the machine is `Running` with `pc` at cell 0, which is in range, and
the ROM cells hold the image. -/
theorem firstCycleFetchesImageCellZero : Obligations.FirstCycleFetchesImageCellZero := by
  intro rom
  have hcell : (State.resetWith rom).cell 0 = rom[0] := romHolds_resetWith rom 0 (by decide)
  exact ⟨State.resetWith_pc rom, {
    running := State.resetWith_status rom
    inRange := by simp
    word := by simpa using hcell }⟩

end Sys2Proof.Safety
end
